-- ==== Sys2Proof/Word.lean ====
section
/-!
DEFINITION. The word type. A raw value of the unit has W = 8, 16 or 32 bits (00_scope.md R5, R13). The model holds it
in the low W bits of one 32-bit container; `WellFormed.lean` says that the bits above W are 0, and every operation
keeps that (log 2).
-/

namespace Sys2Proof

/-- The container of one raw value or one stored integer: bit i of the value is bit i of the word (R13). -/
abbrev Word := BitVec 32

/-- `2^k` as a mathematical integer (R14: every primitive is a function on unbounded integers). -/
def pow2 (k : Nat) : Int := ((2 ^ k : Nat) : Int)

end Sys2Proof
end

