-- ==== Sys2Proof/Syntax.lean ====
section
/-!
DEFINITION. The command word as the unit's ports carry it (30_encoding.md R49, R50) and the abstract commands, one
constructor for each row of spec/opcode_table.json (R52). A constructor carries exactly the operand fields its row
reads (R53); the ignored fields stand in `Cmd` only (log 16).
-/

namespace Sys2Proof

/-- The four fields of a command, as they arrive on the ports `cmd_op`, `cmd_c`, `cmd_b`, `cmd_a` (R49, R50). -/
structure Cmd where
  op : BitVec 4
  c  : Word
  b  : Word
  a  : Word
  deriving DecidableEq, Repr

/-- The commands of R52, operands in the order a, b, c of R53. -/
inductive Instr where
  | conv    (a : Word)
  | fromint (a : Word)
  | toint   (a : Word)
  | add     (a b : Word)
  | sub     (a b : Word)
  | neg     (a : Word)
  | mul     (a b : Word)
  | divf    (a b : Word)
  | divr    (a b : Word)
  | abs     (a : Word)
  | clamp   (a b c : Word)
  | sqrtc   (a : Word)
  | sqrtr   (a : Word)
  | sqrt    (a : Word)
  | cmp     (a b : Word)
  | illegal
  deriving DecidableEq, Repr

end Sys2Proof
end

