-- ==== Sys2Proof/Config.lean ====
section
/-!
DEFINITION. What an implementation fixes when it is elaborated (00_scope.md section 4) and the values the spec leaves
free. A `Cfg` cannot hold an illegal configuration (R11, R140): the widths are an enumeration and a format carries the
proof that its fraction count is at most its width.
-/

namespace Sys2Proof

/-- The legal storage widths (R5, R9). -/
inductive Width where
  | w8
  | w16
  | w32
  deriving DecidableEq, Repr

def Width.bits : Width → Nat
  | .w8  => 8
  | .w16 => 16
  | .w32 => 32

/-- A format (W, SGN, F): R5, R6, R7. -/
structure Format where
  width   : Width
  signed  : Bool
  frac    : Nat
  frac_le : frac ≤ width.bits
  deriving DecidableEq, Repr

/-- W, the storage width in bits (R5). -/
abbrev Format.w (f : Format) : Nat := f.width.bits

/-- CFG = (W, SGN, F, W2, SGN2, F2, N_FAST, N_PRECISE): the source format, the destination format of CONV, and the
iteration counts of SQRT (R9, R10). -/
structure Cfg where
  src      : Format
  dst      : Format
  nFast    : Nat
  nPrecise : Nat
  deriving DecidableEq, Repr

/-- The normative iteration counts, N_FAST = 4 and N_PRECISE = 1 (R10). -/
def Cfg.standard (src dst : Format) : Cfg := ⟨src, dst, 4, 1⟩

/-- The one configuration of `State.reset`: signed W = 32, F = 16 to signed W2 = 16, F2 = 8, the pair of program P3 of
95_test_vectors.md. DESIGN CHOICE, unsafe only where a statement rests on it (log 1). -/
def Config.resetCfg : Cfg :=
  .standard ⟨.w32, true, 16, by decide⟩ ⟨.w16, true, 8, by decide⟩

/-- The values `unspecified(n)` of R15, R136 and R150 are drawn from, one for each value of the counter `draws`: a FREE
VALUE without a body, about which nothing can be proved (93 U9, U10; log 5). -/
opaque Config.freeWord : Nat → Word

/-- LAT - 1 of a command (R12, R156): a FREE VALUE of the configuration, the command and the counter `draws`, so any
finite latency of at least one edge, possibly different for every command and operand (93 U11; log 6). -/
opaque Config.extraEdges : Cfg → Cmd → Nat → Nat

end Sys2Proof
end

