-- ==== Sys2Proof/Machine/Operands.lean ====
section
/-!
DEFINITION. How a word is read as an integer and an integer written as a word: the value and arithmetic primitives of
00_scope.md R13 and R14 and the derived constants of R8. All arithmetic is on mathematical integers; only `wrap` and
`port` lose bits.
-/

namespace Sys2Proof

/-- The W wires of a port: the low W bits of the word (30_encoding.md R49, 20_memory.md R42). -/
def Format.port (f : Format) (x : Word) : Word := BitVec.ofNat 32 (x.toNat % 2 ^ f.w)

/-- SGN = 1 and `x[W-1] = 1` (R13, 44_sqrt.md R105). -/
def Format.negative (f : Format) (x : Word) : Bool := f.signed && x.getLsbD (f.w - 1)

/-- `ival(x)` (R13): the integer the storage type gives the pattern. -/
def Format.ival (f : Format) (x : Word) : Int :=
  if f.negative x then (x.toNat : Int) - pow2 f.w else (x.toNat : Int)

/-- `wrap(z)` (R14): the W-bit pattern of `z mod 2^W`, the remainder non-negative. `wrap2` is this at the destination
format. -/
def Format.wrap (f : Format) (z : Int) : Word := BitVec.ofNat 32 (z % pow2 f.w).toNat

/-- `fdiv(z, k) = floor(z / 2^k)` (R14). -/
def floorShift (z : Int) (k : Nat) : Int := z / pow2 k

/-- `tdiv(n, d)`: the quotient rounded toward zero (R14). -/
def truncDiv (n d : Int) : Int := n.tdiv d

/-- `shr1(x)`: the storage type's right shift by one (R14). -/
def Format.shr1 (f : Format) (x : Word) : Word := f.wrap (floorShift (f.ival x) 1)

/-- The number of consecutive 0 bits of `x` from bit n-1 downward; `n` when all of them are 0. -/
def leadingZeros : Nat → Word → Nat
  | 0, _     => 0
  | n + 1, x => if x.getLsbD n then 0 else leadingZeros n x + 1

/-- `clz(x)` on the W-bit pattern (R14, for x other than zero). At zero, where R14 gives no value and says that no rule
evaluates it, the count is W: DESIGN CHOICE (log 21). No command reaches it there (44_sqrt.md R105); `sameTopMostBit`
does. -/
def Format.clz (f : Format) (x : Word) : Nat := leadingZeros f.w x

/-- WB = W - F - SGN, the whole bits (R8); -1 when SGN = 1 and F = W. -/
def Format.wholeBits (f : Format) : Int := (f.w : Int) - f.frac - (if f.signed then 1 else 0)

/-- MAX_INT = 2^WB - 1 (R8) for WB >= 0. At WB = -1, where R8 says that the formula gives no integer, the value here is 0:
DESIGN CHOICE (log 23). -/
def Format.maxInt (f : Format) : Int := pow2 f.wholeBits.toNat - 1

/-- MIN_INT = -2^WB if SGN = 1, else 0 (R8) for WB >= 0. At WB = -1, where R8 says that the formula gives no integer, the
value here is -1: DESIGN CHOICE (log 23). -/
def Format.minInt (f : Format) : Int := if f.signed then -pow2 f.wholeBits.toNat else 0

/-- IW, the width of the intermediate type (R8); it cannot be observed (42_multiplier.md R91, 43_divider.md R98). -/
def Format.intermediateWidth (f : Format) : Nat := if f.w ≤ 16 then 32 else 64

/-- Every operand port of a command carries its low W bits (30_encoding.md R49, R50). -/
def Cmd.onPorts (f : Format) (k : Cmd) : Cmd := ⟨k.op, f.port k.c, f.port k.b, f.port k.a⟩

end Sys2Proof
end

