-- ==== Sys2Proof/WellFormed.lean ====
section
/-!
DEFINITION. Which terms can stand on the unit's ports (a value wider than its port cannot be presented:
20_memory.md R42), and the elaboration check of a raw configuration tuple, which rejects each illegal one by name
(00_scope.md R11, 60_exceptions.md R140, 93 U18).
-/

namespace Sys2Proof

/-- The word is one value of a W-bit port: no bit above W. -/
def Format.fits (f : Format) (x : Word) : Bool := x.toNat < 2 ^ f.w

/-- Every operand of the command fits the source format. -/
def Instr.wf (f : Format) : Instr → Bool
  | .conv a      => f.fits a
  | .fromint a   => f.fits a
  | .toint a     => f.fits a
  | .add a b     => f.fits a && f.fits b
  | .sub a b     => f.fits a && f.fits b
  | .neg a       => f.fits a
  | .mul a b     => f.fits a && f.fits b
  | .divf a b    => f.fits a && f.fits b
  | .divr a b    => f.fits a && f.fits b
  | .abs a       => f.fits a
  | .clamp a b c => f.fits a && f.fits b && f.fits c
  | .sqrtc a     => f.fits a
  | .sqrtr a     => f.fits a
  | .sqrt a      => f.fits a
  | .cmp a b     => f.fits a && f.fits b
  | .illegal     => true

/-- Every operand field of a command word, read or ignored, fits its port. -/
def Cmd.wf (f : Format) (k : Cmd) : Bool := f.fits k.a && f.fits k.b && f.fits k.c

/-- A configuration tuple as someone writes it down, legal or not (00_scope.md section 4). -/
structure RawCfg where
  w        : Nat
  sgn      : Bool
  f        : Int
  w2       : Nat
  sgn2     : Bool
  f2       : Int
  nFast    : Nat
  nPrecise : Nat
  deriving DecidableEq, Repr

/-- Why a configuration is no instance of the unit (R11). -/
inductive ElabError where
  | illegalWidth       -- W or W2 outside 8, 16, 32 (R5, R9)
  | negativeFraction   -- F or F2 negative (R7, R9)
  | excessiveFraction  -- F > W or F2 > W2 (R7, R9)
  deriving DecidableEq, Repr

def Width.ofNat? : Nat → Option Width
  | 8  => some .w8
  | 16 => some .w16
  | 32 => some .w32
  | _  => none

/-- One format of a raw tuple, or the reason it is illegal; nothing is reduced to a legal value (R140). -/
def elaborateFormat (w : Nat) (sgn : Bool) (f : Int) : Except ElabError Format :=
  match Width.ofNat? w with
  | none => .error .illegalWidth
  | some width =>
    if f < 0 then .error .negativeFraction
    else if h : f.toNat ≤ width.bits then .ok ⟨width, sgn, f.toNat, h⟩
    else .error .excessiveFraction

/-- Elaboration of an instance (R11, R140). -/
def RawCfg.elaborate (r : RawCfg) : Except ElabError Cfg :=
  match elaborateFormat r.w r.sgn r.f, elaborateFormat r.w2 r.sgn2 r.f2 with
  | .ok src, .ok dst => .ok ⟨src, dst, r.nFast, r.nPrecise⟩
  | .error e, _      => .error e
  | .ok _, .error e  => .error e

end Sys2Proof
end

