-- ==== Sys2Proof/Decode.lean ====
section
/-!
DEFINITION. The command word CMD = op, c, b, a of 4 + 3W bits (30_encoding.md R50), the decoder, total on the sixteen
operation codes (R52), and the encoder. A number of more than 4 + 3W bits is no command word and is rejected by name.
-/

namespace Sys2Proof

/-- The number CMD spells, `a` in bits W-1..0, `b` above it, then `c`, then `op` in bits 3W+3..3W (R50). -/
def Cmd.toWord (n : Nat) (k : Cmd) : Nat :=
  k.a.toNat + k.b.toNat * 2 ^ n + k.c.toNat * 2 ^ (2 * n) + k.op.toNat * 2 ^ (3 * n)

/-- The four fields of a command word for W = n (R50). -/
def Cmd.ofWord (n : Nat) (w : Nat) : Cmd where
  op := BitVec.ofNat 4 (w / 2 ^ (3 * n))
  c  := BitVec.ofNat 32 (w / 2 ^ (2 * n) % 2 ^ n)
  b  := BitVec.ofNat 32 (w / 2 ^ n % 2 ^ n)
  a  := BitVec.ofNat 32 (w % 2 ^ n)

/-- R52: `op` selects the command and no other field takes part; the sixteen cases are all there are, 0xF being the
reserved code of R55. -/
def decodeCmd (k : Cmd) : Instr :=
  match k.op.toNat with
  | 0x0 => .conv k.a
  | 0x1 => .fromint k.a
  | 0x2 => .toint k.a
  | 0x3 => .add k.a k.b
  | 0x4 => .sub k.a k.b
  | 0x5 => .neg k.a
  | 0x6 => .mul k.a k.b
  | 0x7 => .divf k.a k.b
  | 0x8 => .divr k.a k.b
  | 0x9 => .abs k.a
  | 0xA => .clamp k.a k.b k.c
  | 0xB => .sqrtc k.a
  | 0xC => .sqrtr k.a
  | 0xD => .sqrt k.a
  | 0xE => .cmp k.a k.b
  | _   => .illegal   -- 0xF: a four-bit field has no other value left

inductive DecodeError where
  | wordTooWide   -- more than 4 + 3W bits: not a command word (R42, R50)
  deriving DecidableEq, Repr

/-- The command a CMD word of the format stands for. -/
def decode (f : Format) (w : Nat) : Except DecodeError Instr :=
  if w < 2 ^ (4 + 3 * f.w) then .ok (decodeCmd (Cmd.ofWord f.w w)) else .error .wordTooWide

/-- The operation code of R52. -/
def Instr.opcode : Instr → BitVec 4
  | .conv _      => 0x0#4
  | .fromint _   => 0x1#4
  | .toint _     => 0x2#4
  | .add _ _     => 0x3#4
  | .sub _ _     => 0x4#4
  | .neg _       => 0x5#4
  | .mul _ _     => 0x6#4
  | .divf _ _    => 0x7#4
  | .divr _ _    => 0x8#4
  | .abs _       => 0x9#4
  | .clamp _ _ _ => 0xA#4
  | .sqrtc _     => 0xB#4
  | .sqrtr _     => 0xC#4
  | .sqrt _      => 0xD#4
  | .cmp _ _     => 0xE#4
  | .illegal     => 0xF#4

/-- Operand a of the encoded word; an omitted operand is zero in it (R57). -/
def Instr.operandA : Instr → Word
  | .conv a      => a
  | .fromint a   => a
  | .toint a     => a
  | .add a _     => a
  | .sub a _     => a
  | .neg a       => a
  | .mul a _     => a
  | .divf a _    => a
  | .divr a _    => a
  | .abs a       => a
  | .clamp a _ _ => a
  | .sqrtc a     => a
  | .sqrtr a     => a
  | .sqrt a      => a
  | .cmp a _     => a
  | .illegal     => 0

/-- Operand b of the encoded word (R53, R57). -/
def Instr.operandB : Instr → Word
  | .add _ b     => b
  | .sub _ b     => b
  | .mul _ b     => b
  | .divf _ b    => b
  | .divr _ b    => b
  | .clamp _ b _ => b
  | .cmp _ b     => b
  | .conv _      => 0
  | .fromint _   => 0
  | .toint _     => 0
  | .neg _       => 0
  | .abs _       => 0
  | .sqrtc _     => 0
  | .sqrtr _     => 0
  | .sqrt _      => 0
  | .illegal     => 0

/-- Operand c of the encoded word: only CLAMP has one (R50, R53). -/
def Instr.operandC : Instr → Word
  | .clamp _ _ c => c
  | .conv _      => 0
  | .fromint _   => 0
  | .toint _     => 0
  | .add _ _     => 0
  | .sub _ _     => 0
  | .neg _       => 0
  | .mul _ _     => 0
  | .divf _ _    => 0
  | .divr _ _    => 0
  | .abs _       => 0
  | .sqrtc _     => 0
  | .sqrtr _     => 0
  | .sqrt _      => 0
  | .cmp _ _     => 0
  | .illegal     => 0

def Instr.toCmd (i : Instr) : Cmd := ⟨i.opcode, i.operandC, i.operandB, i.operandA⟩

/-- The CMD word of a command, ignored fields zero (R50, R57). -/
def encode (f : Format) (i : Instr) : Nat := i.toCmd.toWord f.w

/-- The command that spec/opcode_table.json's numbering gives. A row's match and mask number the 4-bit op field alone,
bit 0 its least significant bit, so the operand fields lie above and are zero; a word of 28, 52 or 100 bits is the whole
CMD word of W = 8, 16, 32 (the table's match_by_width) (log 14). -/
def tableCmd (nbits w : Nat) : Option Cmd :=
  if nbits = 28 ∨ nbits = 52 ∨ nbits = 100 then
    if w < 2 ^ nbits then some (Cmd.ofWord ((nbits - 4) / 3) w) else none
  else if w < 16 then some ⟨BitVec.ofNat 4 w, 0, 0, 0⟩ else none

/-- The command the decoder reads from a table word. -/
def decodeTableWord (nbits w : Nat) : Option Instr := (tableCmd nbits w).map decodeCmd

end Sys2Proof
end

