-- ==== Sys2Proof/Machine/State.lean ====
section
/-!
DEFINITION. The architectural state of one instance (10_state.md R21), the parameter CFG, the host's future port
samples, and the model's own counters; the reset state (R33).
-/

namespace Sys2Proof.Machine

open Sys2Proof

/-- Why the machine stops with a fault: never. Every fault of the spec is a completion with a status other than OK, so a
next state (60_exceptions.md R136, R137), and there is no halt, wait or stuck state (70_reset_and_hazards.md R157). No
constructor, so nothing raises one: safe (log 11). -/
inductive Fault where
  deriving DecidableEq, Repr

/-- Why the machine refuses an instruction. -/
inductive Refusal where
  /-- Raised by an arm of `exec` whose instruction has no meaning yet; no arm of this model does. Safe. -/
  | notModelled (mnemonic : String)
  deriving DecidableEq, Repr

/-- The faults of the spec, each a way for a command to complete (60_exceptions.md R130). -/
inductive CmdFault where
  | divByZero
  | sqrtNegative
  | illegalOp
  deriving DecidableEq, Repr

/-- What the host drives on the input ports at one rising edge of `clk` (30_encoding.md R49). -/
structure PortSample where
  rst      : Bool
  cmdValid : Bool
  cmd      : Cmd
  deriving DecidableEq, Repr

/-- A host that drives no reset and presents no command. -/
def PortSample.idle : PortSample := ⟨false, false, ⟨0, 0, 0, 0⟩⟩

/-- Which response registers hold a value the spec fixes (R33, R136, R152). The model's own: no command reads it. -/
structure Specified where
  res    : Bool
  cres   : Bool
  cc     : Bool
  status : Bool
  deriving DecidableEq, Repr

/-- After a reset none does (R33). -/
def Specified.nothing : Specified := ⟨false, false, false, false⟩

structure State where
  /-- CFG, fixed when the instance is built (00_scope.md section 4); no step changes it. -/
  cfg       : Cfg
  /-- RES, W bits (R22). -/
  res       : Word
  /-- CRES, W2 bits (R23). -/
  cres      : Word
  /-- CC = GT, EQ, LT in bits 2, 1, 0 (R24). -/
  cc        : BitVec 3
  /-- STATUS (R25). -/
  status    : BitVec 2
  /-- FSR = ILLOP, SQRTNEG, DIVZ in bits 2, 1, 0 (R26). -/
  fsr       : BitVec 3
  /-- BUSY (R27). -/
  busy      : Bool
  /-- RVALID (R27). -/
  rvalid    : Bool
  /-- CMDQ, the accepted command (R28). -/
  cmdq      : Cmd
  /-- The model's own: edges still to pass before the completion edge (R153; log 6). -/
  remaining : Nat
  /-- The model's own: the host's port samples at the next edges; past the end the host is idle (log 8). -/
  inputs    : List PortSample
  /-- The model's own: the counter the free values are drawn with (log 5). -/
  draws     : Nat
  /-- The model's own: which registers hold a specified value (log 10). -/
  specified : Specified
  deriving DecidableEq, Repr

/-- The state after reset of the instance `cfg` (R33): BUSY, RVALID and FSR as the spec states; RES, CRES, CC, STATUS and
CMDQ, for which it states none, zero (DESIGN CHOICE, unsafe: log 3). -/
def State.resetOf (cfg : Cfg) : State where
  cfg       := cfg
  res       := 0
  cres      := 0
  cc        := 0
  status    := 0
  fsr       := 0
  busy      := false
  rvalid    := false
  cmdq      := ⟨0, 0, 0, 0⟩
  remaining := 0
  inputs    := []
  draws     := 0
  specified := .nothing

/-- The state after reset of the chosen instance (log 1). -/
def State.reset : State := State.resetOf Config.resetCfg

end Sys2Proof.Machine
end

