-- ==== Sys2Proof/Machine/Flags.lean ====
section
/-!
DEFINITION. The flag and status encodings: CC (10_state.md R24, 45_compare_clamp.md R120), STATUS (R25) and FSR (R26,
60_exceptions.md R130). No other flag exists (41_adder.md R85).
-/

namespace Sys2Proof.Machine

open Sys2Proof

/-- CC of a comparison: GT in bit 2, EQ in bit 1, LT in bit 0, compared as exact integers (R120). -/
def compareFlags (f : Format) (a b : Word) : BitVec 3 :=
  BitVec.ofBool (decide (f.ival a > f.ival b)) ++ BitVec.ofBool (decide (f.ival a = f.ival b))
    ++ BitVec.ofBool (decide (f.ival a < f.ival b))

/-- STATUS = OK (R25). -/
def statusOk : BitVec 2 := 0b00#2

/-- The code a fault writes to STATUS (R25, R130). -/
def CmdFault.status : CmdFault → BitVec 2
  | .divByZero    => 0b01#2
  | .sqrtNegative => 0b10#2
  | .illegalOp    => 0b11#2

/-- The bit a fault sets in FSR: DIVZ 0, SQRTNEG 1, ILLOP 2 (R26, R130). -/
def CmdFault.sticky : CmdFault → BitVec 3
  | .divByZero    => 0b001#3
  | .sqrtNegative => 0b010#3
  | .illegalOp    => 0b100#3

/-- Whether the faulting command has a destination, which is then RES and takes an unspecified value (R136). -/
def CmdFault.hasDestination : CmdFault → Bool
  | .divByZero    => true
  | .sqrtNegative => true
  | .illegalOp    => false

end Sys2Proof.Machine
end

