-- ==== Sys2Proof/Machine/Ops.lean ====
section
/-!
DEFINITION. The shared operations on State: completing a command with a result (10_state.md R27), completing it with a
fault (60_exceptions.md R136), and the four other things a rising edge can do: reset (70_reset_and_hazards.md R150),
accept, wait, idle (R153). There is no return from a fault (R137).
-/

namespace Sys2Proof.Machine

open Sys2Proof

/-! ## Free values -/

/-- `unspecified(W)` at the counter value `n` (00_scope.md R15): the low W bits of a free word. -/
def freeRaw (f : Format) (n : Nat) : Word := f.port (Config.freeWord n)

/-- `unspecified(k)` for the narrow registers. -/
def freeBits (k : Nat) (n : Nat) : BitVec k := (Config.freeWord n).setWidth k

/-! ## Completion -/

/-- BUSY <- 0 and RVALID <- 1, part of every completion (R27). -/
def State.complete (s : State) : State := { s with busy := false, rvalid := true }

/-- RES <- v, STATUS <- OK, complete. -/
def finishRes (v : Word) (s : State) : State :=
  { s.complete with
    res := v
    status := statusOk
    specified := { s.specified with res := true, status := true } }

/-- CRES <- v, STATUS <- OK, complete (R23). -/
def finishCres (v : Word) (s : State) : State :=
  { s.complete with
    cres := v
    status := statusOk
    specified := { s.specified with cres := true, status := true } }

/-- CC <- flags, STATUS <- OK, complete (R24). -/
def finishCc (flags : BitVec 3) (s : State) : State :=
  { s.complete with
    cc := flags
    status := statusOk
    specified := { s.specified with cc := true, status := true } }

/-- `raise k` (R136): STATUS takes the code, the sticky bit is set, RES takes an unspecified value when the command has
a destination; CRES and CC, and RES for ILLEGAL_OP, are kept. -/
def raise (k : CmdFault) (s : State) : State :=
  { s.complete with
    status := k.status
    fsr := s.fsr ||| k.sticky
    res := if k.hasDestination then freeRaw s.cfg.src s.draws else s.res
    draws := if k.hasDestination then s.draws + 1 else s.draws
    specified := { s.specified with res := !k.hasDestination && s.specified.res, status := true } }

/-- The end of a command that gives a W-bit result or raises a fault. -/
def conclude (r : Except CmdFault Word) (s : State) : State :=
  match r with
  | .ok v    => finishRes v s
  | .error k => raise k s

/-! ## The other edges -/

/-- What the host drives at this edge (R49). -/
def State.ports (s : State) : PortSample := s.inputs.headD .idle

/-- The state once the ports of this edge are sampled. -/
def State.sampled (s : State) : State := { s with inputs := s.inputs.tail }

/-- `cmd_ready = not BUSY` (R49). -/
def State.cmdReady (s : State) : Bool := !s.busy

/-- R150: BUSY, RVALID and FSR cleared, the data registers and CMDQ unspecified, the command in flight abandoned
(R151). -/
def resetEdge (s : State) : State :=
  { s with
    busy := false
    rvalid := false
    fsr := 0
    res := freeRaw s.cfg.src s.draws
    cres := freeRaw s.cfg.dst (s.draws + 1)
    cc := freeBits 3 (s.draws + 2)
    status := freeBits 2 (s.draws + 3)
    cmdq := ⟨freeBits 4 (s.draws + 4), freeRaw s.cfg.src (s.draws + 5), freeRaw s.cfg.src (s.draws + 6),
             freeRaw s.cfg.src (s.draws + 7)⟩
    remaining := 0
    draws := s.draws + 8
    specified := .nothing }

/-- Accept (R27, R28, R153): CMDQ takes the whole command from the ports, BUSY <- 1, RVALID <- 0; LAT is drawn, and
LAT - 1 edges will pass before the completion edge. -/
def accept (k : Cmd) (s : State) : State :=
  { s with
    busy := true
    rvalid := false
    cmdq := k.onPorts s.cfg.src
    remaining := Config.extraEdges s.cfg (k.onPorts s.cfg.src) s.draws
    draws := s.draws + 1 }

/-- An edge at which the command in flight does not complete yet (R153, R154). -/
def wait (s : State) : State := { s with remaining := s.remaining - 1 }

/-- What a rising edge does. -/
inductive Edge where
  | reset
  | accept (k : Cmd)
  | wait
  | complete (k : Cmd)
  | idle
  deriving DecidableEq, Repr

/-- `rst` first (R150); then a command in flight waits or completes (R153), and its operands come from CMDQ, never from
the ports (R28); then a presented command is accepted (R49). -/
def State.edge (s : State) : Edge :=
  if s.ports.rst then .reset
  else if s.cmdReady then (if s.ports.cmdValid then .accept s.ports.cmd else .idle)
  else if s.remaining = 0 then .complete s.cmdq else .wait

/-- The command `k` accepted and its waiting edges passed: the next edge is its completion. The head of the host's
samples must not be a reset, so an idle one is put before a reset (log 9). -/
def State.holding (k : Cmd) (s : State) : State :=
  { s with
    busy := true
    rvalid := false
    cmdq := k
    remaining := 0
    inputs := if s.ports.rst then .idle :: s.inputs else s.inputs }

end Sys2Proof.Machine
end

