-- ==== Sys2Proof/Machine/Adder.lean ====
section
/-!
DEFINITION. The adder: ADD, SUB, NEG, ABS (41_adder.md R80 to R83). F plays no part; results wrap, and no carry, flag,
saturation or trap exists (R85).
-/

namespace Sys2Proof.Machine

open Sys2Proof

/-- R80. -/
def addValue (f : Format) (a b : Word) : Word := f.wrap (f.ival a + f.ival b)

/-- R81. -/
def subValue (f : Format) (a b : Word) : Word := f.wrap (f.ival a - f.ival b)

/-- R82. -/
def negValue (f : Format) (a : Word) : Word := f.wrap (-f.ival a)

/-- R83; the smallest signed value wraps to itself. -/
def absValue (f : Format) (a : Word) : Word := f.wrap ((f.ival a).natAbs : Int)

/-- ADD (R80). -/
def execAdd (a b : Word) (s : State) : Host.Outcome State Fault Refusal :=
  .next (finishRes (addValue s.cfg.src a b) s)

/-- SUB (R81). -/
def execSub (a b : Word) (s : State) : Host.Outcome State Fault Refusal :=
  .next (finishRes (subValue s.cfg.src a b) s)

/-- NEG (R82). -/
def execNeg (a : Word) (s : State) : Host.Outcome State Fault Refusal :=
  .next (finishRes (negValue s.cfg.src a) s)

/-- ABS (R83). -/
def execAbs (a : Word) (s : State) : Host.Outcome State Fault Refusal :=
  .next (finishRes (absValue s.cfg.src a) s)

end Sys2Proof.Machine
end

