-- ==== Sys2Proof/Machine/CompareClamp.lean ====
section
/-!
DEFINITION. CMP and CLAMP (45_compare_clamp.md R120, R121), and the precision predicates of R123, which are test-bench
predicates on two raw values and no commands.
-/

namespace Sys2Proof.Machine

open Sys2Proof

/-- R121: low tested first; the result is one of the three operand patterns. -/
def clampValue (f : Format) (a b c : Word) : Word :=
  if f.ival a < f.ival b then b else if f.ival a > f.ival c then c else a

/-- CMP (R120). -/
def execCmp (a b : Word) (s : State) : Host.Outcome State Fault Refusal :=
  .next (finishCc (compareFlags s.cfg.src a b) s)

/-- CLAMP (R121). -/
def execClamp (a b c : Word) (s : State) : Host.Outcome State Fault Refusal :=
  .next (finishRes (clampValue s.cfg.src a b c) s)

/-- `same_top_most_bit` (R123). R123 states it through `clz`, which R14 leaves open at zero: that zero has the same top
bit as zero and as no other pattern is the model's, DESIGN CHOICE (log 21). -/
def sameTopMostBit (f : Format) (p q : Word) : Bool := f.clz p == f.clz q

/-- `same_up_to_n_bits` (R123): within 2^n raw units, inclusive. -/
def sameUpToNBits (f : Format) (p q : Word) (n : Nat) : Bool := (f.ival p - f.ival q).natAbs ≤ 2 ^ n

/-- `same_up_to_one_bit` (R123): within one raw unit, inclusive. -/
def sameUpToOneBit (f : Format) (p q : Word) : Bool := (f.ival p - f.ival q).natAbs ≤ 1

end Sys2Proof.Machine
end

