-- ==== Sys2Proof/Machine/Divider.lean ====
section
/-!
DEFINITION. The divider: DIVF, fast, and DIVR, correctly rounded (43_divider.md R95 to R98). Every step is exact; the
quotient wraps once (R98). A zero divisor raises DIV_BY_ZERO before any arithmetic (R97, 60_exceptions.md R135).
-/

namespace Sys2Proof.Machine

open Sys2Proof

/-- The dividend pre-scaled by 2^F. -/
def scaledDividend (f : Format) (a : Word) : Int := f.ival a * pow2 f.frac

/-- The quotient of DIVF before the wrap (R95). -/
def fastQuotient (n d : Int) : Int := truncDiv n d

/-- The quotient of DIVR before the wrap (R96): half the divisor, rounded toward zero, added for equal signs and
subtracted for opposite ones, zero counting as non-negative. -/
def roundedQuotient (n d : Int) : Int :=
  let h := truncDiv d 2
  truncDiv (if decide (n < 0) = decide (d < 0) then n + h else n - h) d

/-- R95: the W-bit result or DIV_BY_ZERO. -/
def divfValue (f : Format) (a b : Word) : Except CmdFault Word :=
  if f.ival b = 0 then .error .divByZero
  else .ok (f.wrap (fastQuotient (scaledDividend f a) (f.ival b)))

/-- R96: the W-bit result or DIV_BY_ZERO. -/
def divrValue (f : Format) (a b : Word) : Except CmdFault Word :=
  if f.ival b = 0 then .error .divByZero
  else .ok (f.wrap (roundedQuotient (scaledDividend f a) (f.ival b)))

/-- DIVF (R95). -/
def execDivf (a b : Word) (s : State) : Host.Outcome State Fault Refusal :=
  .next (conclude (divfValue s.cfg.src a b) s)

/-- DIVR (R96). -/
def execDivr (a b : Word) (s : State) : Host.Outcome State Fault Refusal :=
  .next (conclude (divrValue s.cfg.src a b) s)

end Sys2Proof.Machine
end

