-- ==== Sys2Proof/Machine/FormatConverter.lean ====
section
/-!
DEFINITION. The format converter: CONV, FROMINT, TOINT (40_format_converter.md R70 to R72). Shifts are the mathematical
ones for every distance, the full width included; only the cast wraps (R74: no rounding, no saturation, no check).
-/

namespace Sys2Proof.Machine

open Sys2Proof

/-- R70 up to the cast: the shift by F2 - F, exact, on the value of the source type. -/
def convShift (src dst : Format) (a : Word) : Int :=
  if src.frac ≤ dst.frac then src.ival a * pow2 (dst.frac - src.frac)
  else floorShift (src.ival a) (src.frac - dst.frac)

def convValue (src dst : Format) (a : Word) : Word := dst.wrap (convShift src dst a)

/-- R71. -/
def fromIntValue (f : Format) (a : Word) : Word := f.wrap (f.ival a * pow2 f.frac)

/-- R72. -/
def toIntValue (f : Format) (a : Word) : Word := f.wrap (floorShift (f.ival a) f.frac)

/-- CONV (R70). -/
def execConv (a : Word) (s : State) : Host.Outcome State Fault Refusal :=
  .next (finishCres (convValue s.cfg.src s.cfg.dst a) s)

/-- FROMINT (R71). -/
def execFromint (a : Word) (s : State) : Host.Outcome State Fault Refusal :=
  .next (finishRes (fromIntValue s.cfg.src a) s)

/-- TOINT (R72). -/
def execToint (a : Word) (s : State) : Host.Outcome State Fault Refusal :=
  .next (finishRes (toIntValue s.cfg.src a) s)

end Sys2Proof.Machine
end

