-- ==== Sys2Proof/Machine/Multiplier.lean ====
section
/-!
DEFINITION. The multiplier: MUL (42_multiplier.md R90). The product is exact (R91), shifted right by F toward negative
infinity and wrapped.
-/

namespace Sys2Proof.Machine

open Sys2Proof

/-- R90. -/
def mulValue (f : Format) (a b : Word) : Word := f.wrap (floorShift (f.ival a * f.ival b) f.frac)

/-- MUL (R90). -/
def execMul (a b : Word) (s : State) : Host.Outcome State Fault Refusal :=
  .next (finishRes (mulValue s.cfg.src a b) s)

end Sys2Proof.Machine
end

