-- ==== Sys2Proof/Machine/Reserved.lean ====
section
/-!
DEFINITION. The reserved operation code 0xF (30_encoding.md R55): the command completes with ILLEGAL_OP and writes no
data register (60_exceptions.md R133, R136).
-/

namespace Sys2Proof.Machine

/-- ILLEGAL (R55, R133). -/
def execIllegal (s : State) : Host.Outcome State Fault Refusal := .next (raise .illegalOp s)

end Sys2Proof.Machine
end

