-- ==== Sys2Proof/Machine/Sqrt.lean ====
section
/-!
DEFINITION. The square root: SQRTC, SQRTR, SQRT (44_sqrt.md R105 to R111). Additions are `addValue` of R80 and divisions
`divfValue` and `divrValue` of R95 and R96, wraps and faults included (R108, R110).
-/

namespace Sys2Proof.Machine

open Sys2Proof

/-- What the common front of R105 finds: a negative radicand, zero, or the exponent e of the coarse estimate. -/
inductive RootFront where
  | negative
  | zero
  | exponent (e : Nat)
  deriving DecidableEq, Repr

/-- `h = W - clz(a) - 1`, the position of the highest set bit (R105). -/
def highestSetBit (f : Format) (a : Word) : Nat := f.w - f.clz a - 1

/-- R105. -/
def rootFront (f : Format) (a : Word) : RootFront :=
  if f.negative a then .negative
  else if a = 0 then .zero
  else .exponent ((highestSetBit f a + f.frac) / 2)

/-- The front, then `go e`: the fault for a negative radicand (R111), 0 for zero (R105). -/
def withFront (f : Format) (a : Word) (go : Nat → Except CmdFault Word) : Except CmdFault Word :=
  match rootFront f a with
  | .negative   => .error .sqrtNegative
  | .zero       => .ok (f.wrap 0)
  | .exponent e => go e

/-- R106: the coarse estimate 2^e. -/
def coarseRoot (f : Format) (e : Nat) : Word := f.wrap (pow2 e)

/-- `t` of R107: the radicand shifted by s = e - F, right when positive, left when negative. -/
def rescaledRadicand (f : Format) (a : Word) (e : Nat) : Word :=
  if f.frac ≤ e then f.wrap (floorShift (f.ival a) (e - f.frac))
  else f.wrap (f.ival a * pow2 (f.frac - e))

/-- R107: the average of the coarse estimate and the rescaled radicand. -/
def refinedRoot (f : Format) (a : Word) (e : Nat) : Word :=
  f.shr1 (addValue f (coarseRoot f e) (rescaledRadicand f a e))

/-- TWO = wrap(2 * 2^F), the fixed-point value 2.0 made as FROMINT makes it (R109). -/
def rootTwo (f : Format) : Word := f.wrap (2 * pow2 f.frac)

/-- One fast iteration of R108. -/
def fastStep (f : Format) (a y : Word) : Except CmdFault Word :=
  match divfValue f a y with
  | .ok q    => .ok (f.shr1 (addValue f y q))
  | .error k => .error k

/-- One precise iteration of R108. -/
def preciseStep (f : Format) (a y : Word) : Except CmdFault Word :=
  match divrValue f a y with
  | .ok q    => divrValue f (addValue f y q) (rootTwo f)
  | .error k => .error k

/-- `repeat n times`, ended by the first fault (R108, R110). -/
def repeatStep (body : Word → Except CmdFault Word) : Nat → Word → Except CmdFault Word
  | 0, y     => .ok y
  | n + 1, y =>
    match body y with
    | .ok y'   => repeatStep body n y'
    | .error k => .error k

/-- The iterations of R108 from the initial guess. -/
def iterateRoot (cfg : Cfg) (a y : Word) : Except CmdFault Word :=
  match repeatStep (fastStep cfg.src a) cfg.nFast y with
  | .ok y'   => repeatStep (preciseStep cfg.src a) cfg.nPrecise y'
  | .error k => .error k

/-- R106. -/
def sqrtcValue (f : Format) (a : Word) : Except CmdFault Word := withFront f a fun e => .ok (coarseRoot f e)

/-- R107. -/
def sqrtrValue (f : Format) (a : Word) : Except CmdFault Word := withFront f a fun e => .ok (refinedRoot f a e)

/-- R108. -/
def sqrtValue (cfg : Cfg) (a : Word) : Except CmdFault Word :=
  withFront cfg.src a fun e => iterateRoot cfg a (refinedRoot cfg.src a e)

/-- SQRTC (R106). -/
def execSqrtc (a : Word) (s : State) : Host.Outcome State Fault Refusal :=
  .next (conclude (sqrtcValue s.cfg.src a) s)

/-- SQRTR (R107). -/
def execSqrtr (a : Word) (s : State) : Host.Outcome State Fault Refusal :=
  .next (conclude (sqrtrValue s.cfg.src a) s)

/-- SQRT (R108). -/
def execSqrt (a : Word) (s : State) : Host.Outcome State Fault Refusal :=
  .next (conclude (sqrtValue s.cfg a) s)

end Sys2Proof.Machine
end

