-- ==== Sys2Proof/Machine/Dispatch.lean ====
section
/-!
DEFINITION. One arm per command of 30_encoding.md R52. `exec i s` is the completion of the command i at the state s
(10_state.md R27, 20_memory.md R45).
-/

namespace Sys2Proof.Machine

open Sys2Proof

def exec (i : Instr) (s : State) : Host.Outcome State Fault Refusal :=
  match i with
  | .conv a => Sys2Proof.Machine.execConv a s
  | .fromint a => Sys2Proof.Machine.execFromint a s
  | .toint a => Sys2Proof.Machine.execToint a s
  | .add a b => Sys2Proof.Machine.execAdd a b s
  | .sub a b => Sys2Proof.Machine.execSub a b s
  | .neg a => Sys2Proof.Machine.execNeg a s
  | .mul a b => Sys2Proof.Machine.execMul a b s
  | .divf a b => Sys2Proof.Machine.execDivf a b s
  | .divr a b => Sys2Proof.Machine.execDivr a b s
  | .abs a => Sys2Proof.Machine.execAbs a s
  | .clamp a b c => Sys2Proof.Machine.execClamp a b c s
  | .sqrtc a => Sys2Proof.Machine.execSqrtc a s
  | .sqrtr a => Sys2Proof.Machine.execSqrtr a s
  | .sqrt a => Sys2Proof.Machine.execSqrt a s
  | .cmp a b => Sys2Proof.Machine.execCmp a b s
  | .illegal => Sys2Proof.Machine.execIllegal s

end Sys2Proof.Machine
end

