-- ==== Sys2Proof/Machine/Step.lean ====
section
/-!
DEFINITION. One step of the model: one rising edge of `clk` (30_encoding.md R49). The decisions are in `State.edge`; at
the completion edge the command in CMDQ is decoded and executed (10_state.md R28).
-/

namespace Sys2Proof.Machine

open Sys2Proof

def step (s : State) : Host.Outcome State Fault Refusal :=
  match s.edge with
  | .reset      => .next (resetEdge s.sampled)
  | .accept k   => .next (accept k s.sampled)
  | .wait       => .next (wait s.sampled)
  | .complete k => exec (decodeCmd k) s.sampled
  | .idle       => .next s.sampled

/-- The command of a table word held in CMDQ with its completion edge next, so that the very next step runs it; a word
that is no command leaves the state as it is (log 9). -/
def State.withFetchWord (s : State) (nbits w : Nat) : State :=
  match tableCmd nbits w with
  | some k => s.holding (k.onPorts s.cfg.src)
  | none   => s

end Sys2Proof.Machine
end

