-- ==== Sys2Proof/Machine/Ports.lean ====
section
/-!
DEFINITION. What the host sees: the output ports (30_encoding.md R49), the response record (R51), and the reads the
spec allows it (10_state.md R33, 60_exceptions.md R136, 70_reset_and_hazards.md R152, R154).
-/

namespace Sys2Proof.Machine

open Sys2Proof

/-- The output ports of R49. -/
structure OutPorts where
  cmdReady  : Bool
  rspValid  : Bool
  rspRes    : Word
  rspCres   : Word
  rspCc     : BitVec 3
  rspStatus : BitVec 2
  fsr       : BitVec 3
  deriving DecidableEq, Repr

/-- The registers and nothing more; no combinational path from a command port (R49). -/
def outputs (s : State) : OutPorts where
  cmdReady  := s.cmdReady
  rspValid  := s.rvalid
  rspRes    := s.res
  rspCres   := s.cres
  rspCc     := s.cc
  rspStatus := s.status
  fsr       := s.fsr

/-- RSP = FSR, STATUS, CC, CRES, RES, from the most significant field down, of 8 + W2 + W bits (R51). -/
def responseRecord (s : State) : Nat :=
  let w := s.cfg.src.w
  let w2 := s.cfg.dst.w
  s.res.toNat + s.cres.toNat * 2 ^ w + s.cc.toNat * 2 ^ (w + w2) + s.status.toNat * 2 ^ (w + w2 + 3)
    + s.fsr.toNat * 2 ^ (w + w2 + 5)

/-- `rsp_status` as the host may use it: while `rsp_valid = 1` (R152, R154). -/
def hostStatus (s : State) : Option (BitVec 2) :=
  if s.rvalid && s.specified.status then some s.status else none

/-- `rsp_res` as the host may use it: while `rsp_valid = 1`, with STATUS = OK (R136), once a command has written it
with STATUS = OK (R152). `none` is the refusal to read of R33. -/
def hostRes (s : State) : Option Word :=
  if s.rvalid && s.status == statusOk && s.specified.res then some s.res else none

/-- `rsp_cres`, meaningful only after the first CONV since reset (R152). -/
def hostCres (s : State) : Option Word :=
  if s.rvalid && s.specified.cres then some s.cres else none

/-- `rsp_cc`, meaningful only after the first CMP since reset (R152). -/
def hostCc (s : State) : Option (BitVec 3) :=
  if s.rvalid && s.specified.cc then some s.cc else none

/-- `fsr` may be read at any time after reset (R152). -/
def hostFsr (s : State) : BitVec 3 := s.fsr

end Sys2Proof.Machine
end

