-- ==== Sys2Proof/Machine/Untimed.lean ====
section
/-!
DEFINITION. The untimed view of 20_memory.md R45: exec(s, k) goes from one completed state to the next, and a sequence of
commands composes. The edge machine of Step.lean refines it (70_reset_and_hazards.md R156).
-/

namespace Sys2Proof.Machine

open Sys2Proof

/-- The accept edge of `k` with its waiting edges passed. -/
def acceptedAt (k : Cmd) (s : State) : State := { accept k s with remaining := 0 }

/-- exec(s, k) of R45: accept, then complete. -/
def execCommand (k : Cmd) (s : State) : Host.Outcome State Fault Refusal :=
  exec (decodeCmd (k.onPorts s.cfg.src)) (acceptedAt k s)

/-- exec(... exec(exec(s, k1), k2) ..., kn) of R45. -/
def execCommands : List Cmd → State → Host.Outcome State Fault Refusal
  | [], s      => .next s
  | k :: ks, s =>
    match execCommand k s with
    | .next t    => execCommands ks t
    | .fault r   => .fault r
    | .refused r => .refused r

end Sys2Proof.Machine
end

