-- ==== Sys2Proof/Safety.lean ====
section
/-!
DEFINITION. The terms claims use: the integer reading and the wrap of 00_scope.md R13 and R14 said a second time, in the
library's own words; what a legal state is; and what it means that two states agree on everything the spec fixes.
-/

namespace Sys2Proof

/-- The integer a pattern stands for (R13), in the library's reading of a W-bit vector. -/
def Format.value (f : Format) (x : Word) : Int :=
  if f.signed then (x.setWidth f.w).toInt else ((x.setWidth f.w).toNat : Int)

/-- The W-bit pattern of `z mod 2^W` (R14), in the library's words. -/
def Format.pattern (f : Format) (z : Int) : Word := (BitVec.ofInt f.w z).setWidth 32

/-- `z` is the value of some pattern of the format: no overflow (60_exceptions.md R134). -/
abbrev Format.holds (f : Format) (z : Int) : Prop :=
  if f.signed then -pow2 (f.w - 1) ≤ z ∧ z < pow2 (f.w - 1) else 0 ≤ z ∧ z < pow2 f.w

/-- The exact radicand in squared raw units: the true root of `a` is the square root of this (44_sqrt.md R112). -/
def Format.radicand (f : Format) (a : Word) : Int := f.value a * pow2 f.frac

/-! ### Arithmetic in the intermediate type of IW bits (R8), which wraps at IW bits as a datapath of that width would -/

/-- A raw value widened to the intermediate type, of the storage type's signedness (42_multiplier.md, 43_divider.md). -/
def Format.widen (f : Format) (x : Word) : BitVec f.intermediateWidth :=
  if f.signed then (x.setWidth f.w).signExtend f.intermediateWidth else (x.setWidth f.w).setWidth f.intermediateWidth

/-- Back to the storage type: the low W bits (R90, R95). -/
def Format.narrow (f : Format) (x : BitVec f.intermediateWidth) : Word := (x.setWidth f.w).setWidth 32

/-- The intermediate type's right shift: arithmetic when signed, logical when not (R14). -/
def Format.wideShift (f : Format) (x : BitVec f.intermediateWidth) (k : Nat) : BitVec f.intermediateWidth :=
  if f.signed then x.sshiftRight k else x >>> k

/-- The intermediate type's integer division, toward zero. -/
def Format.wideDiv (f : Format) (n d : BitVec f.intermediateWidth) : BitVec f.intermediateWidth :=
  if f.signed then n.sdiv d else n / d

/-- The sign of an intermediate value. -/
def Format.wideNegative (f : Format) (x : BitVec f.intermediateWidth) : Bool := f.signed && x.msb

end Sys2Proof

namespace Sys2Proof.Machine

open Sys2Proof

/-- Every register holds a value of its width (10_state.md R21). -/
abbrev State.RegistersFit (s : State) : Prop :=
  s.cfg.src.fits s.res = true ∧ s.cfg.dst.fits s.cres = true ∧ s.cmdq.wf s.cfg.src = true

/-- (BUSY, RVALID) = (1, 1) is never reached (R27); only a command in flight has edges left. -/
abbrev State.ProtocolLegal (s : State) : Prop :=
  ¬(s.busy = true ∧ s.rvalid = true) ∧ (s.busy = false → s.remaining = 0)

/-- CC is one-hot once a CMP has written it (R24); a response that is valid has a status (R27); a fault status has its
sticky bit (R25, R26). -/
abbrev State.ResponseLegal (s : State) : Prop :=
  (s.specified.cc = true → s.cc = 0b001#3 ∨ s.cc = 0b010#3 ∨ s.cc = 0b100#3) ∧
  (s.rvalid = true → s.specified.status = true) ∧
  (s.specified.status = true →
    (s.status = 0b01#2 → s.fsr.getLsbD 0 = true) ∧
    (s.status = 0b10#2 → s.fsr.getLsbD 1 = true) ∧
    (s.status = 0b11#2 → s.fsr.getLsbD 2 = true))

/-- The invariant of the unit. -/
abbrev State.Inv (s : State) : Prop := s.RegistersFit ∧ s.ProtocolLegal ∧ s.ResponseLegal

/-- The unit is ready for a command (R49). -/
abbrev State.Idle (s : State) : Prop := s.busy = false

/-- The response registers a host reads (R51). -/
def State.response (s : State) : Word × Word × BitVec 3 × BitVec 2 × BitVec 3 :=
  (s.res, s.cres, s.cc, s.status, s.fsr)

/-- The command accepted at this edge, if one is: `rst = 0`, `cmd_valid = 1` and `cmd_ready = 1` (R49). -/
def State.accepted (s : State) : Option Cmd :=
  if s.ports.rst = false ∧ s.ports.cmdValid = true ∧ s.cmdReady = true then some s.ports.cmd else none

/-- The commands accepted in the next `n` edges, in the order they are accepted (20_memory.md R45). -/
def acceptedDuring : Nat → State → List Cmd
  | 0, _     => []
  | n + 1, s =>
    s.accepted.toList ++
      match step s with
      | .next t    => acceptedDuring n t
      | .fault _   => []
      | .refused _ => []

/-! ## The states a completion leaves, field by field; every field not named is as before -/

/-- After a command that wrote `v` to RES with STATUS = OK (R22, R25, R27). -/
def State.withResult (s : State) (v : Word) : State :=
  { s with
    res := v, status := 0b00#2, busy := false, rvalid := true
    specified := { s.specified with res := true, status := true } }

/-- After a command that wrote `v` to CRES with STATUS = OK (R23). -/
def State.withConverted (s : State) (v : Word) : State :=
  { s with
    cres := v, status := 0b00#2, busy := false, rvalid := true
    specified := { s.specified with cres := true, status := true } }

/-- After a command that wrote `c` to CC with STATUS = OK (R24). -/
def State.withComparison (s : State) (c : BitVec 3) : State :=
  { s with
    cc := c, status := 0b00#2, busy := false, rvalid := true
    specified := { s.specified with cc := true, status := true } }

/-- After a fault with a destination (60_exceptions.md R136): RES holds some W-bit value, nothing said of which, and
the counter of the free values moves on. -/
def State.FaultEntry (s t : State) (code : BitVec 2) (bit : BitVec 3) : Prop :=
  ∃ (v : Word) (n : Nat), s.cfg.src.fits v = true ∧
    t = { s with
          res := v, status := code, fsr := s.fsr ||| bit, busy := false, rvalid := true
          draws := n
          specified := { s.specified with res := false, status := true } }

/-- Two states agree on everything but the contents of registers that hold no specified value (R33) and of CMDQ while no
command is in flight (R28). -/
structure State.Agree (s t : State) : Prop where
  cfg       : s.cfg = t.cfg
  fsr       : s.fsr = t.fsr
  busy      : s.busy = t.busy
  rvalid    : s.rvalid = t.rvalid
  remaining : s.remaining = t.remaining
  inputs    : s.inputs = t.inputs
  draws     : s.draws = t.draws
  specified : s.specified = t.specified
  cmdq      : s.busy = true → s.cmdq = t.cmdq
  res       : s.specified.res = true → s.res = t.res
  cres      : s.specified.cres = true → s.cres = t.cres
  cc        : s.specified.cc = true → s.cc = t.cc
  status    : s.specified.status = true → s.status = t.status

end Sys2Proof.Machine
end

