-- ==== Sys2Proof/Certificates/Slice0/Obligations.lean ====
section
/-!
DEFINITION. The statements for the provers. Results are stated with `Format.value` and `Format.pattern` (00_scope.md
R13, R14, in the library's words), not with the model's own `ival` and `wrap`. `State.withResult`, `withConverted`,
`withComparison` and `FaultEntry` give the whole next state, so each result statement is its instruction's frame and its
completion as well. A free value, and the counter it is drawn with, is only ever said to exist. The fields `specified`,
`remaining`, `inputs` and `draws` of these states are the model's own bookkeeping (log 5, 6, 8, 10); RES, CRES, CC, STATUS,
FSR, BUSY, RVALID and CMDQ are the spec's.
-/

open Sys2Proof Sys2Proof.Machine

/-! ## Encoding -/

/-- R50, R52: a few command words written out in 95_test_vectors.md decode to the commands they stand for. -/
def Obligations.WrittenCommandWordsDecode : Prop :=
  let s8 : Format := ⟨.w8, true, 4, by decide⟩
  let u16 : Format := ⟨.w16, false, 8, by decide⟩
  let s32 : Format := ⟨.w32, true, 16, by decide⟩
  decode s8 0x3002818 = .ok (.add 0x18 0x28) ∧ decode s8 0xF563412 = .ok .illegal ∧
  decode s8 0x5CDAB01 = .ok (.neg 0x01) ∧ decode u16 0x7000003000A00 = .ok (.divf 0x0A00 0x0300) ∧
  decode s32 0xA00432979000CC354000BEA7F = .ok (.clamp 0x000BEA7F 0x000CC354 0x00432979) ∧
  decode s32 0xE000000007FFF00007FFF0000 = .ok (.cmp 0x7FFF0000 0x7FFF0000)

/-- R50, R52, R57: decoding the encoded word of any well-formed command of any format gives the command back. -/
def Obligations.DecodeOfEncodedCommandIsTheCommand : Prop :=
  ∀ (f : Format) (i : Instr), i.wf f = true → decode f (encode f i) = .ok i

/-- R50, R52: the decoder is total on the words of 4 + 3W bits, gives well-formed commands only, is selected by the op
field, and rejects every wider number. -/
def Obligations.DecoderIsTotalOnCommandWords : Prop :=
  ∀ (f : Format) (w : Nat),
    (w < 2 ^ (4 + 3 * f.w) →
      ∃ i, decode f w = .ok i ∧ i.wf f = true ∧ i.opcode.toNat = w / 2 ^ (3 * f.w)) ∧
    (2 ^ (4 + 3 * f.w) ≤ w → decode f w = .error .wordTooWide)

/-- R53: the response does not depend on an operand field the command does not read. Two command words that agree on op
and on the fields the table of R53 names complete alike, from every state. -/
def Obligations.UnreadOperandFieldsAreIgnored : Prop :=
  ∀ (s : State) (k k' : Cmd), k.op = k'.op →
    (k.op ≠ 0xF#4 → k.a = k'.a) →
    (k.op = 0x3#4 ∨ k.op = 0x4#4 ∨ k.op = 0x6#4 ∨ k.op = 0x7#4 ∨ k.op = 0x8#4 ∨ k.op = 0xA#4 ∨ k.op = 0xE#4 →
      k.b = k'.b) →
    (k.op = 0xA#4 → k.c = k'.c) →
    s.ports.rst = false → s.busy = true → s.remaining = 0 →
    ∃ t : State, step { s with cmdq := k } = .next { t with cmdq := k } ∧
      step { s with cmdq := k' } = .next { t with cmdq := k' }

/-- R51: the fields of RSP, read back from the record. -/
def Obligations.ResponseRecordHoldsItsFields : Prop :=
  ∀ s : State, s.RegistersFit →
    let w := s.cfg.src.w
    let w2 := s.cfg.dst.w
    let r := responseRecord s
    r < 2 ^ (3 + 2 + 3 + w2 + w) ∧
    r % 2 ^ w = s.res.toNat ∧ r / 2 ^ w % 2 ^ w2 = s.cres.toNat ∧
    r / 2 ^ (w + w2) % 2 ^ 3 = s.cc.toNat ∧ r / 2 ^ (w + w2 + 3) % 2 ^ 2 = s.status.toNat ∧
    r / 2 ^ (w + w2 + 5) % 2 ^ 3 = s.fsr.toNat

/-- R5, R7, R9, R11, R140: elaboration accepts exactly the legal tuples, unchanged. -/
def Obligations.ElaborationAcceptsExactlyLegalConfigurations : Prop :=
  ∀ r : RawCfg,
    ((r.w = 8 ∨ r.w = 16 ∨ r.w = 32) ∧ (r.w2 = 8 ∨ r.w2 = 16 ∨ r.w2 = 32) ∧
      0 ≤ r.f ∧ r.f ≤ r.w ∧ 0 ≤ r.f2 ∧ r.f2 ≤ r.w2 ↔ ∃ c, r.elaborate = .ok c) ∧
    ∀ c, r.elaborate = .ok c →
      c.src.w = r.w ∧ c.src.signed = r.sgn ∧ (c.src.frac : Int) = r.f ∧
      c.dst.w = r.w2 ∧ c.dst.signed = r.sgn2 ∧ (c.dst.frac : Int) = r.f2 ∧
      c.nFast = r.nFast ∧ c.nPrecise = r.nPrecise

/-! ## The step -/

/-- R28: at a completion edge the step is `exec` of the command that CMDQ decodes to, at the state whose port sample of
this edge is consumed. Said of the four fields and of the encoded word. -/
def Obligations.CompletionStepRunsTheDecodedCommand : Prop :=
  ∀ s : State, s.ports.rst = false → s.busy = true → s.remaining = 0 →
    step s = exec (decodeCmd s.cmdq) { s with inputs := s.inputs.tail } ∧
    ∀ i : Instr, decode s.cfg.src (s.cmdq.toWord s.cfg.src.w) = .ok i → s.cmdq.wf s.cfg.src = true →
      step s = exec i { s with inputs := s.inputs.tail }

/-- R27, R28, R49, R153: an accept edge latches the whole command from the ports, sets BUSY, clears RVALID and changes
no response register; some number of edges is then left. -/
def Obligations.AcceptEdgeLatchesTheCommand : Prop :=
  ∀ s : State, s.ports.rst = false → s.busy = false → s.ports.cmdValid = true → s.ports.cmd.wf s.cfg.src = true →
    ∃ n m, step s = .next { s with
      busy := true, rvalid := false, cmdq := s.ports.cmd, remaining := n, draws := m
      inputs := s.inputs.tail }

/-- R28, R47, R153: while BUSY = 1 nothing on the command ports reaches the unit. -/
def Obligations.PortsAreIgnoredWhileBusy : Prop :=
  ∀ (s : State) (p q : PortSample) (rest : List PortSample), s.busy = true → p.rst = false → q.rst = false →
    step { s with inputs := p :: rest } = step { s with inputs := q :: rest }

/-- R153: an edge with no reset, no command presented to an idle unit and no completion changes no register: the unit
idles, or the command in flight waits. -/
def Obligations.WaitingAndIdleEdgesChangeNoRegister : Prop :=
  ∀ s : State, s.ports.rst = false →
    (s.busy = false → s.ports.cmdValid = false → step s = .next { s with inputs := s.inputs.tail }) ∧
    (s.busy = true → s.remaining ≠ 0 →
      step s = .next { s with remaining := s.remaining - 1, inputs := s.inputs.tail })

/-- R150, R151: a reset edge clears BUSY, RVALID and FSR whatever the unit was doing and whatever is presented, accepts
nothing, leaves the data registers some values of their widths, and none of them specified. -/
def Obligations.ResetEdgeClearsTheControlState : Prop :=
  ∀ s : State, s.ports.rst = true →
    ∃ (res cres : Word) (cc : BitVec 3) (status : BitVec 2) (k : Cmd) (n : Nat),
      s.cfg.src.fits res = true ∧ s.cfg.dst.fits cres = true ∧ k.wf s.cfg.src = true ∧
      step s = .next
        { cfg := s.cfg, res := res, cres := cres, cc := cc, status := status, fsr := 0b000#3
          busy := false, rvalid := false, cmdq := k, remaining := 0
          inputs := s.inputs.tail, draws := n, specified := ⟨false, false, false, false⟩ }

/-- R33: what reset leaves, of the registers for which the spec states a value, on every instance; no data register is
readable by the host (R152). The instance of `State.reset` is the model's choice (log 1). -/
def Obligations.ResetStateHoldsTheStatedValues : Prop :=
  ∀ cfg : Cfg, (State.resetOf cfg).cfg = cfg ∧ (State.resetOf cfg).busy = false ∧
    (State.resetOf cfg).rvalid = false ∧ (State.resetOf cfg).fsr = 0b000#3 ∧
    hostRes (State.resetOf cfg) = none ∧ hostCres (State.resetOf cfg) = none ∧ hostCc (State.resetOf cfg) = none ∧
    hostStatus (State.resetOf cfg) = none ∧ State.reset = State.resetOf Config.resetCfg

/-- The invariant holds at the reset state of every instance; that its data registers hold zeros is the model's choice
(log 3). -/
def Obligations.ResetStateMeetsTheInvariant : Prop := ∀ cfg : Cfg, (State.resetOf cfg).Inv

/-- Every step keeps the invariant: registers of their widths, (BUSY, RVALID) never (1, 1), CC one-hot once written, a
fault status with its sticky bit. -/
def Obligations.EveryStepKeepsTheInvariant : Prop :=
  ∀ s t : State, s.Inv → step s = .next t → t.Inv

/-- R157: from every state a step answers a next state; there is no halt, wait or stuck state and no refusal. -/
def Obligations.EveryStepAnswersANextState : Prop := ∀ s : State, ∃ t, step s = .next t

/-- R56: no step changes the configuration. -/
def Obligations.NoStepChangesTheConfiguration : Prop :=
  ∀ s t : State, step s = .next t → t.cfg = s.cfg

/-- R26, R137: only a reset edge clears a bit of FSR. -/
def Obligations.OnlyResetClearsAFaultBit : Prop :=
  ∀ (s t : State) (j : Nat), step s = .next t → s.ports.rst = false → s.fsr.getLsbD j = true → t.fsr.getLsbD j = true

/-- R27, R154: away from completion and reset edges the response registers do not change. -/
def Obligations.ResponseIsStableBetweenCompletions : Prop :=
  ∀ s t : State, step s = .next t → s.ports.rst = false → (s.busy = false ∨ s.remaining ≠ 0) →
    t.response = s.response ∧ t.specified = s.specified

/-- R12, R45, R153, R154, R157: an accepted command completes LAT edges later, LAT at least 1, whatever is presented
meanwhile; the state is then exec(s, k) of R45, and until then BUSY = 1, RVALID = 0 and the response is the old one. -/
def Obligations.AcceptedCommandCompletesAfterItsLatency : Prop :=
  ∀ (s : State) (k : Cmd) (rest : List PortSample), s.busy = false → (∀ p ∈ rest, p.rst = false) →
    ∃ lat, 1 ≤ lat ∧
      Host.Core.run Sys2Proof.core (lat + 1) { s with inputs := ⟨false, true, k⟩ :: rest } =
        execCommand k { s with inputs := rest.drop lat } ∧
      ∀ m, 1 ≤ m → m ≤ lat → ∃ t : State,
        Host.Core.run Sys2Proof.core m { s with inputs := ⟨false, true, k⟩ :: rest } = .next t ∧
        t.busy = true ∧ t.rvalid = false ∧ t.response = s.response

/-- R45: commands take effect one at a time in the order they are accepted. Whatever the host presents, reset apart, and
after any number of edges: a unit that is idle again is in the state exec(... exec(exec(s, k1), k2) ..., kn) of the commands
accepted on the way; a unit that is busy holds the last of them, and still shows the response of those before it. Every
sequence of commands is accepted in its order under some host. -/
def Obligations.CommandSequenceTakesEffectInOrder : Prop :=
  (∀ (n : Nat) (s t : State), s.busy = false → (∀ p ∈ s.inputs, p.rst = false) →
    Host.Core.run Sys2Proof.core n s = .next t →
    (t.busy = false → execCommands (acceptedDuring n s) { s with inputs := t.inputs } = .next t) ∧
    (t.busy = true → ∃ (ks : List Cmd) (k : Cmd) (u : State), acceptedDuring n s = ks ++ [k] ∧
      execCommands ks { s with inputs := t.inputs } = .next u ∧ t.cmdq = k.onPorts s.cfg.src ∧
      t.rvalid = false ∧ t.response = u.response)) ∧
  ∀ (ks : List Cmd) (s : State), s.busy = false →
    ∃ (n : Nat) (samples : List PortSample), (∀ p ∈ samples, p.rst = false) ∧
      (samples.filter (·.cmdValid)).map (·.cmd) = ks ∧
      acceptedDuring n { s with inputs := samples } = ks ∧
      Host.Core.run Sys2Proof.core n { s with inputs := samples } = execCommands ks { s with inputs := [] }

/-- R33, R136, R152: an unspecified value never reaches a specified register or the control state. Two states that agree
on everything specified still do after a step. -/
def Obligations.UnspecifiedValuesNeverLeak : Prop :=
  ∀ s t : State, s.Agree t → ∃ s' t', step s = .next s' ∧ step t = .next t' ∧ s'.Agree t'

/-! ## Completions in general -/

/-- R22, R23, R24, R53: a command writes its destination and nothing else: CRES is CONV's, CC is CMP's, and CONV, CMP
and the reserved code leave RES. -/
def Obligations.OnlyTheDestinationIsWritten : Prop :=
  ∀ (i : Instr) (s t : State), exec i s = .next t →
    ((∀ a, i ≠ .conv a) → t.cres = s.cres ∧ t.specified.cres = s.specified.cres) ∧
    ((∀ a b, i ≠ .cmp a b) → t.cc = s.cc ∧ t.specified.cc = s.specified.cc) ∧
    ((∃ a, i = .conv a) ∨ (∃ a b, i = .cmp a b) ∨ i = .illegal →
      t.res = s.res ∧ t.specified.res = s.specified.res) ∧
    t.cfg = s.cfg ∧ t.cmdq = s.cmdq ∧ t.inputs = s.inputs ∧ t.remaining = s.remaining

/-- R25, R26, R27: every completion writes STATUS, sets exactly the FSR bit of its code and no bit when OK, clears BUSY
and sets RVALID. -/
def Obligations.CompletionWritesStatusAndItsFaultBit : Prop :=
  ∀ (i : Instr) (s t : State), exec i s = .next t →
    t.busy = false ∧ t.rvalid = true ∧
    (t.status = 0b00#2 → t.fsr = s.fsr) ∧ (t.status = 0b01#2 → t.fsr = s.fsr ||| 0b001#3) ∧
    (t.status = 0b10#2 → t.fsr = s.fsr ||| 0b010#3) ∧ (t.status = 0b11#2 → t.fsr = s.fsr ||| 0b100#3)

/-- R130, R134: ten commands complete with STATUS = OK and FSR unchanged for every operand value; overflow is no
fault. -/
def Obligations.OverflowIsNeverAFault : Prop :=
  ∀ (s : State) (a b c : Word) (i : Instr),
    i ∈ [.conv a, .fromint a, .toint a, .add a b, .sub a b, .neg a, .mul a b, .abs a, .clamp a b c, .cmp a b] →
    ∃ t, exec i s = .next t ∧ t.status = 0b00#2 ∧ t.fsr = s.fsr

/-- R16: a command is a function of its operands and CFG. From any two states of one configuration it completes with the
same status, and when that is OK with the same value in its destination. -/
def Obligations.CommandsReadNoRegister : Prop :=
  ∀ (i : Instr) (s s' : State), s.cfg = s'.cfg →
    ∃ t t', exec i s = .next t ∧ exec i s' = .next t' ∧ t.status = t'.status ∧
      (t.status = 0b00#2 → (∀ a, i ≠ .conv a) → (∀ a b, i ≠ .cmp a b) → t.res = t'.res) ∧
      ((∃ a, i = .conv a) → t.cres = t'.cres) ∧ ((∃ a b, i = .cmp a b) → t.cc = t'.cc)

/-- R136, R152, R154: after a completion the host may read STATUS; it may read RES only when STATUS is OK, and then
reads the result; and in the window after an accept it may read nothing but FSR. -/
def Obligations.HostReadsOnlySpecifiedResponses : Prop :=
  (∀ (i : Instr) (s t : State), exec i s = .next t →
    hostStatus t = some t.status ∧ (t.status ≠ 0b00#2 → hostRes t = none) ∧
    (t.status = 0b00#2 → (∀ a, i ≠ .conv a) → (∀ a b, i ≠ .cmp a b) → hostRes t = some t.res) ∧
    ((∃ a, i = .conv a) → hostCres t = some t.cres) ∧ ((∃ a b, i = .cmp a b) → hostCc t = some t.cc)) ∧
  ∀ s t : State, s.ports.rst = false → s.busy = false → s.ports.cmdValid = true → step s = .next t →
    hostStatus t = none ∧ hostRes t = none ∧ hostCres t = none ∧ hostCc t = none ∧ hostFsr t = s.fsr

/-! ## Faults -/

/-- R111, R132, R136: a negative radicand takes SQRT_NEGATIVE in all three commands. -/
def Obligations.NegativeRadicandTakesSqrtNegative : Prop :=
  ∀ (s : State) (a : Word), s.cfg.src.fits a = true → s.cfg.src.value a < 0 →
    (∃ t, exec (.sqrtc a) s = .next t ∧ s.FaultEntry t 0b10#2 0b010#3) ∧
    (∃ t, exec (.sqrtr a) s = .next t ∧ s.FaultEntry t 0b10#2 0b010#3) ∧
    (∃ t, exec (.sqrt a) s = .next t ∧ s.FaultEntry t 0b10#2 0b010#3)

/-- R55, R133: op = 0xF is the reserved code whatever the operand fields hold; it completes with ILLEGAL_OP and writes
STATUS and FSR[2] only. -/
def Obligations.ReservedCodeTakesIllegalOp : Prop :=
  (∀ k : Cmd, k.op = 0xF#4 ↔ decodeCmd k = .illegal) ∧
  ∀ s : State, exec .illegal s = .next { s with
    status := 0b11#2, fsr := s.fsr ||| 0b100#3, busy := false, rvalid := true
    specified := { s.specified with status := true } }

/-- R110: in SQRT the first division step that meets a zero divisor ends the command with DIV_BY_ZERO. The steps before
it are DIVF, DIVR and ADD commands that completed; `y` are the fast iterates, `z` the precise ones. -/
def Obligations.ZeroDivisorInsideSqrtTakesDivByZero : Prop :=
  ∀ (s : State) (a : Word) (y z : Nat → Word) (n m : Nat), s.cfg.src.fits a = true → a ≠ 0 →
    exec (.sqrtr a) s = .next (s.withResult (y 0)) →
    (∀ k < n, ∃ q r, exec (.divf a (y k)) s = .next (s.withResult q) ∧
      exec (.add (y k) q) s = .next (s.withResult r) ∧
      y (k + 1) = s.cfg.src.pattern (Int.fdiv (s.cfg.src.value r) 2)) →
    (n < s.cfg.nFast ∧ y n = 0 ∨
      n = s.cfg.nFast ∧ z 0 = y n ∧ m < s.cfg.nPrecise ∧
      (∀ k < m, ∃ q r, exec (.divr a (z k)) s = .next (s.withResult q) ∧
        exec (.add (z k) q) s = .next (s.withResult r) ∧
        exec (.divr r (s.cfg.src.pattern (2 * pow2 s.cfg.src.frac))) s = .next (s.withResult (z (k + 1)))) ∧
      (z m = 0 ∨ s.cfg.src.pattern (2 * pow2 s.cfg.src.frac) = 0)) →
    ∃ t, exec (.sqrt a) s = .next t ∧ s.FaultEntry t 0b01#2 0b001#3

/-! ## The format converter -/

/-- R70: CONV shifts the source value exactly, then casts to the destination type. -/
def Obligations.ConvShiftsThenCasts : Prop :=
  ∀ (s : State) (a : Word), s.cfg.src.fits a = true →
    exec (.conv a) s = .next (s.withConverted (s.cfg.dst.pattern (
      if s.cfg.dst.frac ≥ s.cfg.src.frac then s.cfg.src.value a * pow2 (s.cfg.dst.frac - s.cfg.src.frac)
      else Int.fdiv (s.cfg.src.value a) (pow2 (s.cfg.src.frac - s.cfg.dst.frac)))))

/-- R70: between equal formats CONV copies the pattern. -/
def Obligations.ConvBetweenEqualFormatsIsIdentity : Prop :=
  ∀ (s : State) (a : Word), s.cfg.src.fits a = true → s.cfg.dst = s.cfg.src →
    exec (.conv a) s = .next (s.withConverted a)

/-- R71: FROMINT multiplies by 2^F and wraps. -/
def Obligations.FromIntScalesAndWraps : Prop :=
  ∀ (s : State) (a : Word), s.cfg.src.fits a = true →
    exec (.fromint a) s = .next (s.withResult (s.cfg.src.pattern (s.cfg.src.value a * pow2 s.cfg.src.frac)))

/-- R72: TOINT is the floor of the value over 2^F, and it always fits the storage type. -/
def Obligations.ToIntFloorsTheValue : Prop :=
  ∀ (s : State) (a : Word), s.cfg.src.fits a = true →
    ∃ v, exec (.toint a) s = .next (s.withResult v) ∧ s.cfg.src.fits v = true ∧
      s.cfg.src.value v = Int.fdiv (s.cfg.src.value a) (pow2 s.cfg.src.frac)

/-- R73: TOINT of FROMINT is the identity on the representable integers. -/
def Obligations.RepresentableIntegersRoundTrip : Prop :=
  ∀ (s : State) (i : Int), 0 ≤ s.cfg.src.wholeBits → s.cfg.src.minInt ≤ i → i ≤ s.cfg.src.maxInt →
    ∃ v, exec (.fromint (s.cfg.src.pattern i)) s = .next (s.withResult v) ∧
      exec (.toint v) s = .next (s.withResult (s.cfg.src.pattern i))

/-! ## The adder -/

/-- R80: ADD wraps the exact sum; it is the W-bit sum of the patterns, the same bits for both signednesses. -/
def Obligations.AddIsTheWrappedSum : Prop :=
  ∀ (s : State) (a b : Word), s.cfg.src.fits a = true → s.cfg.src.fits b = true →
    exec (.add a b) s = .next (s.withResult (s.cfg.src.pattern (s.cfg.src.value a + s.cfg.src.value b))) ∧
    s.cfg.src.pattern (s.cfg.src.value a + s.cfg.src.value b) =
      ((a.setWidth s.cfg.src.w) + (b.setWidth s.cfg.src.w)).setWidth 32

/-- R81: SUB wraps the exact difference; it is the W-bit difference of the patterns. -/
def Obligations.SubIsTheWrappedDifference : Prop :=
  ∀ (s : State) (a b : Word), s.cfg.src.fits a = true → s.cfg.src.fits b = true →
    exec (.sub a b) s = .next (s.withResult (s.cfg.src.pattern (s.cfg.src.value a - s.cfg.src.value b))) ∧
    s.cfg.src.pattern (s.cfg.src.value a - s.cfg.src.value b) =
      ((a.setWidth s.cfg.src.w) - (b.setWidth s.cfg.src.w)).setWidth 32

/-- R82: NEG is the two's-complement negation of the W-bit pattern, for both signednesses. -/
def Obligations.NegIsTheWrappedNegation : Prop :=
  ∀ (s : State) (a : Word), s.cfg.src.fits a = true →
    exec (.neg a) s = .next (s.withResult (s.cfg.src.pattern (-s.cfg.src.value a))) ∧
    s.cfg.src.pattern (-s.cfg.src.value a) = (-(a.setWidth s.cfg.src.w)).setWidth 32

/-- R83: ABS wraps the absolute value: the operand when it is not negative, else its negation; the smallest signed value
stays. -/
def Obligations.AbsIsTheWrappedMagnitude : Prop :=
  ∀ (s : State) (a : Word), s.cfg.src.fits a = true →
    exec (.abs a) s = .next (s.withResult (s.cfg.src.pattern |s.cfg.src.value a|)) ∧
    (0 ≤ s.cfg.src.value a → s.cfg.src.pattern |s.cfg.src.value a| = a) ∧
    (s.cfg.src.value a = -pow2 (s.cfg.src.w - 1) → s.cfg.src.pattern |s.cfg.src.value a| = a)

/-- R84 (and R81's law): SUB undoes ADD with or without overflow, a value and its negation sum to 0, and SUB is ADD of
the negation. -/
def Obligations.AdderLawsHoldWithOverflow : Prop :=
  ∀ (s : State) (a b : Word), s.cfg.src.fits a = true → s.cfg.src.fits b = true →
    ∃ r na nb d, exec (.add a b) s = .next (s.withResult r) ∧ exec (.sub r b) s = .next (s.withResult a) ∧
      exec (.neg a) s = .next (s.withResult na) ∧ exec (.add a na) s = .next (s.withResult 0) ∧
      exec (.neg b) s = .next (s.withResult nb) ∧ exec (.sub a b) s = .next (s.withResult d) ∧
      exec (.add a nb) s = .next (s.withResult d)

/-! ## The multiplier -/

/-- R90: MUL is the exact product shifted right by F toward negative infinity, then wrapped. -/
def Obligations.MulFloorsTheExactProduct : Prop :=
  ∀ (s : State) (a b : Word), s.cfg.src.fits a = true → s.cfg.src.fits b = true →
    exec (.mul a b) s = .next (s.withResult (s.cfg.src.pattern
      (Int.fdiv (s.cfg.src.value a * s.cfg.src.value b) (pow2 s.cfg.src.frac))))

/-- R92: when the floor fits, the error of MUL is at least 0 and below one raw unit, for all signs. -/
def Obligations.MulErrorIsBelowOneRawUnit : Prop :=
  ∀ (s : State) (a b v : Word), s.cfg.src.fits a = true → s.cfg.src.fits b = true →
    s.cfg.src.holds (Int.fdiv (s.cfg.src.value a * s.cfg.src.value b) (pow2 s.cfg.src.frac)) →
    exec (.mul a b) s = .next (s.withResult v) →
    0 ≤ s.cfg.src.value a * s.cfg.src.value b - s.cfg.src.value v * pow2 s.cfg.src.frac ∧
    s.cfg.src.value a * s.cfg.src.value b - s.cfg.src.value v * pow2 s.cfg.src.frac < pow2 s.cfg.src.frac

/-- R8, R91, R98: the intermediate width cannot be observed. The exact product and the pre-scaled dividend fit IW bits, and
MUL, DIVF and DIVR give what a datapath of IW bits that wraps gives, but for DIVR of the smallest value by a divisor of
magnitude 2 or more at signed F = W, W = 16 or 32 (R98 (ii); log 22), where only the exact sum is right. DIVF at R98 (i)
is not shut out: wrapping gives the 0 of R98 there. -/
def Obligations.IntermediateTypeHoldsProductAndDividend : Prop :=
  ∀ (s : State) (a b : Word), s.cfg.src.fits a = true → s.cfg.src.fits b = true →
    let f := s.cfg.src
    f.intermediateWidth = (if f.w = 32 then 64 else 32) ∧
    (∀ z, (z = f.value a * f.value b ∨ z = f.value a * pow2 f.frac) →
      if f.signed then -pow2 (f.intermediateWidth - 1) ≤ z ∧ z < pow2 (f.intermediateWidth - 1)
      else 0 ≤ z ∧ z < pow2 f.intermediateWidth) ∧
    exec (.mul a b) s = .next (s.withResult (f.narrow (f.wideShift (f.widen a * f.widen b) f.frac))) ∧
    (b ≠ 0 →
      let n := f.widen a <<< f.frac
      let d := f.widen b
      let h := f.wideDiv d 2
      exec (.divf a b) s = .next (s.withResult (f.narrow (f.wideDiv n d))) ∧
      (¬(f.signed = true ∧ f.frac = f.w ∧ f.w ≠ 8 ∧ f.value a = -pow2 (f.w - 1) ∧ 2 ≤ |f.value b|) →
        exec (.divr a b) s = .next (s.withResult (f.narrow
          (f.wideDiv (if f.wideNegative n = f.wideNegative d then n + h else n - h) d)))))

/-! ## The divider -/

/-- R95, R97: DIVF is sign(n) sign(d) floor(|n| / |d|) of the pre-scaled dividend, wrapped; a zero divisor takes
DIV_BY_ZERO whatever the dividend. -/
def Obligations.DivfTruncatesTowardZero : Prop :=
  ∀ (s : State) (a b : Word), s.cfg.src.fits a = true → s.cfg.src.fits b = true →
    let n := s.cfg.src.value a * pow2 s.cfg.src.frac
    let d := s.cfg.src.value b
    (d ≠ 0 → exec (.divf a b) s = .next (s.withResult (s.cfg.src.pattern
      (n.sign * d.sign * ((n.natAbs / d.natAbs : Nat) : Int))))) ∧
    (d = 0 → ∃ t, exec (.divf a b) s = .next t ∧ s.FaultEntry t 0b01#2 0b001#3)

/-- R96, R97: DIVR wraps the integer nearest to the exact quotient, a halfway quotient going to the one farther from
zero; a zero divisor takes DIV_BY_ZERO whatever the dividend. -/
def Obligations.DivrRoundsHalfAwayFromZero : Prop :=
  ∀ (s : State) (a b : Word), s.cfg.src.fits a = true → s.cfg.src.fits b = true →
    let n := s.cfg.src.value a * pow2 s.cfg.src.frac
    let d := s.cfg.src.value b
    (d ≠ 0 → ∃ q : Int, 2 * |n - q * d| ≤ |d| ∧ (2 * |n - q * d| = |d| → |n| < |q * d|) ∧
      exec (.divr a b) s = .next (s.withResult (s.cfg.src.pattern q))) ∧
    (d = 0 → ∃ t, exec (.divr a b) s = .next t ∧ s.FaultEntry t 0b01#2 0b001#3)

/-- R99: the quotients of the two modes before the wrap: DIVF's is never farther from zero than the exact quotient and
errs by less than one raw unit; the two differ by at most one, DIVR's being the one farther from zero. -/
def Obligations.TheTwoDivisionModesDifferByAtMostOne : Prop :=
  ∀ (s : State) (a b : Word), s.cfg.src.fits a = true → s.cfg.src.fits b = true → b ≠ 0 →
    let n := s.cfg.src.value a * pow2 s.cfg.src.frac
    let d := s.cfg.src.value b
    ∃ q q' : Int, |q * d| ≤ |n| ∧ |n - q * d| < |d| ∧ 2 * |n - q' * d| ≤ |d| ∧ |q' - q| ≤ 1 ∧ |q| ≤ |q'| ∧
      exec (.divf a b) s = .next (s.withResult (s.cfg.src.pattern q)) ∧
      exec (.divr a b) s = .next (s.withResult (s.cfg.src.pattern q'))

/-- R100: with |real(b)| at least 1 and no overflow, multiplying and dividing back differs from `a` by at most one raw
unit. -/
def Obligations.MultiplyThenDivideReturnsWithinOneUnit : Prop :=
  ∀ (s : State) (a b p q : Word), s.cfg.src.fits a = true → s.cfg.src.fits b = true →
    pow2 s.cfg.src.frac ≤ |s.cfg.src.value b| →
    exec (.mul a b) s = .next (s.withResult p) → exec (.divf p b) s = .next (s.withResult q) →
    s.cfg.src.holds (Int.fdiv (s.cfg.src.value a * s.cfg.src.value b) (pow2 s.cfg.src.frac)) →
    s.cfg.src.holds (Int.tdiv (s.cfg.src.value p * pow2 s.cfg.src.frac) (s.cfg.src.value b)) →
    |s.cfg.src.value q - s.cfg.src.value a| ≤ 1

/-! ## The square root -/

/-- R105: the root of zero is zero in all three commands, with STATUS = OK. -/
def Obligations.RootOfZeroIsZero : Prop :=
  ∀ s : State, exec (.sqrtc 0) s = .next (s.withResult 0) ∧ exec (.sqrtr 0) s = .next (s.withResult 0) ∧
    exec (.sqrt 0) s = .next (s.withResult 0)

/-- R105, R106: SQRTC is 2^e with e = floor((h + F) / 2) and h the position of the highest set bit. -/
def Obligations.SqrtcIsTheCoarsePowerOfTwo : Prop :=
  ∀ (s : State) (a : Word) (h : Nat), s.cfg.src.fits a = true → 0 ≤ s.cfg.src.value a →
    2 ^ h ≤ a.toNat → a.toNat < 2 ^ (h + 1) →
    exec (.sqrtc a) s = .next (s.withResult (s.cfg.src.pattern (pow2 ((h + s.cfg.src.frac) / 2))))

/-- R106: the coarse estimate is never above the true root and more than half of it, wherever 2^e fits; it does not fit
exactly when SGN = 1, F = W and the highest set bit is W - 2, where it wraps to the smallest value. -/
def Obligations.SqrtcIsWithinAFactorOfTwo : Prop :=
  ∀ (s : State) (a : Word), s.cfg.src.fits a = true → 0 < s.cfg.src.value a →
    ∃ v, exec (.sqrtc a) s = .next (s.withResult v) ∧
      if s.cfg.src.signed = true ∧ s.cfg.src.frac = s.cfg.src.w ∧ 2 ^ (s.cfg.src.w - 2) ≤ a.toNat then
        s.cfg.src.value v = -pow2 (s.cfg.src.w - 1)
      else
        0 < s.cfg.src.value v ∧ s.cfg.src.value v ^ 2 ≤ s.cfg.src.radicand a ∧
        s.cfg.src.radicand a < (2 * s.cfg.src.value v) ^ 2

/-- R107: SQRTR averages the coarse estimate and the radicand rescaled by 2^(e - F), with a W-bit sum. -/
def Obligations.SqrtrAveragesTheCoarseEstimate : Prop :=
  ∀ (s : State) (a : Word) (h e : Nat) (y0 t sum : Word), s.cfg.src.fits a = true → 0 ≤ s.cfg.src.value a →
    2 ^ h ≤ a.toNat → a.toNat < 2 ^ (h + 1) → e = (h + s.cfg.src.frac) / 2 →
    y0 = s.cfg.src.pattern (pow2 e) →
    t = s.cfg.src.pattern (if s.cfg.src.frac ≤ e then Int.fdiv (s.cfg.src.value a) (pow2 (e - s.cfg.src.frac))
      else s.cfg.src.value a * pow2 (s.cfg.src.frac - e)) →
    exec (.add y0 t) s = .next (s.withResult sum) →
    exec (.sqrtr a) s = .next (s.withResult (s.cfg.src.pattern (Int.fdiv (s.cfg.src.value sum) 2)))

/-- R112: in formats with at least three whole bits SQRTR is less than one raw unit below the true root and at most 25
per cent above it. -/
def Obligations.SqrtrIsWithinAQuarterOfTheRoot : Prop :=
  ∀ (s : State) (a : Word), s.cfg.src.fits a = true → 0 < s.cfg.src.value a → 3 ≤ s.cfg.src.wholeBits →
    ∃ v, exec (.sqrtr a) s = .next (s.withResult v) ∧ 0 < s.cfg.src.value v ∧
      s.cfg.src.radicand a < (s.cfg.src.value v + 1) ^ 2 ∧
      16 * s.cfg.src.value v ^ 2 ≤ 25 * s.cfg.src.radicand a

/-- R113: in formats with at least three whole bits the refined estimate is never farther from the true root than the
coarse one, which lies below the root. Above the root, v - root <= root - c is said without a root as
(c + v)^2 <= 4 radicand. -/
def Obligations.SqrtrIsNoFartherThanSqrtc : Prop :=
  ∀ (s : State) (a c v : Word), s.cfg.src.fits a = true → 0 < s.cfg.src.value a → 3 ≤ s.cfg.src.wholeBits →
    exec (.sqrtc a) s = .next (s.withResult c) → exec (.sqrtr a) s = .next (s.withResult v) →
    s.cfg.src.value c ^ 2 ≤ s.cfg.src.radicand a ∧ s.cfg.src.value c ≤ s.cfg.src.value v ∧
    (s.cfg.src.radicand a < s.cfg.src.value v ^ 2 →
      (s.cfg.src.value c + s.cfg.src.value v) ^ 2 ≤ 4 * s.cfg.src.radicand a)

/-- R108, R109: SQRT is N_FAST times DIVF, ADD and a shift from SQRTR's value, then N_PRECISE times DIVR, ADD and DIVR by
TWO = 2 * 2^F, every step the named command's own result. -/
def Obligations.SqrtRunsFastThenPreciseIterations : Prop :=
  ∀ (s : State) (a : Word) (y z : Nat → Word), s.cfg.src.fits a = true → a ≠ 0 →
    exec (.sqrtr a) s = .next (s.withResult (y 0)) →
    (∀ k < s.cfg.nFast, ∃ q r, exec (.divf a (y k)) s = .next (s.withResult q) ∧
      exec (.add (y k) q) s = .next (s.withResult r) ∧
      y (k + 1) = s.cfg.src.pattern (Int.fdiv (s.cfg.src.value r) 2)) →
    z 0 = y s.cfg.nFast →
    (∀ k < s.cfg.nPrecise, ∃ q r, exec (.divr a (z k)) s = .next (s.withResult q) ∧
      exec (.add (z k) q) s = .next (s.withResult r) ∧
      exec (.divr r (s.cfg.src.pattern (2 * pow2 s.cfg.src.frac))) s = .next (s.withResult (z (k + 1)))) →
    exec (.sqrt a) s = .next (s.withResult (z s.cfg.nPrecise))

/-- R112: in every format with at least three whole bits, for every iteration count, SQRT of a value that is not
negative completes with STATUS = OK. -/
def Obligations.SqrtNeverFaultsWithThreeWholeBits : Prop :=
  ∀ (s : State) (a : Word), s.cfg.src.fits a = true → 0 ≤ s.cfg.src.value a → 3 ≤ s.cfg.src.wholeBits →
    ∃ v, exec (.sqrt a) s = .next (s.withResult v)

/-- R112, 90_conflicts.md C2: with the normative counts 4 and 1 and at least three whole bits, SQRT is within one raw
unit of the exact root, at every width. -/
def Obligations.SqrtIsWithinOneRawUnitOfTheRoot : Prop :=
  ∀ (s : State) (a : Word), s.cfg.src.fits a = true → 0 < s.cfg.src.value a → 3 ≤ s.cfg.src.wholeBits →
    s.cfg.nFast = 4 → s.cfg.nPrecise = 1 →
    ∃ v, exec (.sqrt a) s = .next (s.withResult v) ∧
      (s.cfg.src.value v - 1) ^ 2 < s.cfg.src.radicand a ∧ s.cfg.src.radicand a < (s.cfg.src.value v + 1) ^ 2

/-! ## Comparison and clamp -/

/-- R120: CMP sets exactly the flag of the integer comparison, EQ exactly for equal patterns. -/
def Obligations.CmpSetsTheFlagOfTheComparison : Prop :=
  ∀ (s : State) (a b : Word), s.cfg.src.fits a = true → s.cfg.src.fits b = true →
    exec (.cmp a b) s = .next (s.withComparison
      (if s.cfg.src.value a > s.cfg.src.value b then 0b100#3
       else if s.cfg.src.value a = s.cfg.src.value b then 0b010#3 else 0b001#3)) ∧
    (s.cfg.src.value a = s.cfg.src.value b ↔ a = b)

/-- R122: after every CMP exactly one bit of CC is set, and it is the bit of the integer comparison of the raw values; the
outcome is mirrored when the operands are exchanged; the order is total, antisymmetric and transitive, through EQ too. -/
def Obligations.ComparisonIsATotalOrder : Prop :=
  ∀ (s : State) (a b c : Word), s.cfg.src.fits a = true → s.cfg.src.fits b = true → s.cfg.src.fits c = true →
    ∃ x x' y z, exec (.cmp a b) s = .next (s.withComparison x) ∧ exec (.cmp b a) s = .next (s.withComparison x') ∧
      exec (.cmp b c) s = .next (s.withComparison y) ∧ exec (.cmp a c) s = .next (s.withComparison z) ∧
      (x = 0b001#3 ∨ x = 0b010#3 ∨ x = 0b100#3) ∧
      (x.getLsbD 2 = true ↔ s.cfg.src.value b < s.cfg.src.value a) ∧ (x.getLsbD 1 = true ↔ a = b) ∧
      (x.getLsbD 0 = true ↔ s.cfg.src.value a < s.cfg.src.value b) ∧
      x'.getLsbD 0 = x.getLsbD 2 ∧ x'.getLsbD 1 = x.getLsbD 1 ∧ x'.getLsbD 2 = x.getLsbD 0 ∧
      (x.getLsbD 0 = true → y.getLsbD 0 = true → z.getLsbD 0 = true) ∧
      (x.getLsbD 1 = true → z = y) ∧ (y.getLsbD 1 = true → z = x)

/-- R121: CLAMP tests low first; the result is one of the three operand patterns, `low > high` included. -/
def Obligations.ClampSelectsAnOperand : Prop :=
  ∀ (s : State) (a b c : Word), s.cfg.src.fits a = true → s.cfg.src.fits b = true → s.cfg.src.fits c = true →
    (s.cfg.src.value a < s.cfg.src.value b → exec (.clamp a b c) s = .next (s.withResult b)) ∧
    (s.cfg.src.value b ≤ s.cfg.src.value a → s.cfg.src.value c < s.cfg.src.value a →
      exec (.clamp a b c) s = .next (s.withResult c)) ∧
    (s.cfg.src.value b ≤ s.cfg.src.value a → s.cfg.src.value a ≤ s.cfg.src.value c →
      exec (.clamp a b c) s = .next (s.withResult a))
end

