-- ==== Sys2Proof/Laws/Operands.lean ====
section
/-!
SUPPORT. What the value primitives of Machine/Operands.lean do, said once: the range and residue of `ival`, what `wrap`
and `port` leave, and that both are the library's `value` and `pattern` (00_scope.md R13, R14).
-/

namespace Sys2Proof

theorem pow2_pos (k : Nat) : 0 < pow2 k := by
  have : 0 < 2 ^ k := Nat.pow_pos (by decide)
  unfold pow2; omega

theorem pow2_ne_zero (k : Nat) : pow2 k ≠ 0 := (pow2_pos k).ne'

theorem pow2_eq (k : Nat) : pow2 k = (2 : Int) ^ k := by simp [pow2]

theorem pow2_add (j k : Nat) : pow2 (j + k) = pow2 j * pow2 k := by simp [pow2_eq, pow_add]

theorem pow2_mono {j k : Nat} (h : j ≤ k) : pow2 j ≤ pow2 k := by
  have : 2 ^ j ≤ 2 ^ k := Nat.pow_le_pow_right (by decide) h
  unfold pow2; omega

theorem Width.bits_cases (w : Width) : w.bits = 8 ∨ w.bits = 16 ∨ w.bits = 32 := by cases w <;> simp [Width.bits]

theorem Format.w_pos (f : Format) : 0 < f.w := by
  have := f.width.bits_cases; show 0 < f.width.bits; omega

theorem Format.w_le (f : Format) : f.w ≤ 32 := by
  have := f.width.bits_cases; show f.width.bits ≤ 32; omega

theorem Format.pow_w_le (f : Format) : 2 ^ f.w ≤ 2 ^ 32 := Nat.pow_le_pow_right (by decide) f.w_le

/-- 2^W is twice 2^(W-1). -/
theorem Format.pow2_w (f : Format) : pow2 f.w = 2 * pow2 (f.w - 1) := by
  have h : f.w = 1 + (f.w - 1) := by have := f.w_pos; omega
  have := pow2_add 1 (f.w - 1)
  rw [← h] at this
  simpa [pow2] using this

theorem Format.fits_iff (f : Format) (x : Word) : f.fits x = true ↔ x.toNat < 2 ^ f.w := by simp [Format.fits]

/-! ## port -/

theorem Format.port_toNat (f : Format) (x : Word) : (f.port x).toNat = x.toNat % 2 ^ f.w := by
  have h : x.toNat % 2 ^ f.w < 2 ^ f.w := Nat.mod_lt _ (Nat.pow_pos (by decide))
  have := f.pow_w_le
  simp only [Format.port, BitVec.toNat_ofNat]
  exact Nat.mod_eq_of_lt (by omega)

theorem Format.port_fits (f : Format) (x : Word) : f.fits (f.port x) = true := by
  rw [f.fits_iff, f.port_toNat]; exact Nat.mod_lt _ (Nat.pow_pos (by decide))

theorem Format.port_of_fits {f : Format} {x : Word} (h : f.fits x = true) : f.port x = x := by
  apply BitVec.eq_of_toNat_eq
  rw [f.port_toNat, Nat.mod_eq_of_lt ((f.fits_iff x).1 h)]

/-! ## wrap -/

theorem Format.wrap_toNat (f : Format) (z : Int) : ((f.wrap z).toNat : Int) = z % pow2 f.w := by
  have h0 : 0 ≤ z % pow2 f.w := Int.emod_nonneg _ (pow2_ne_zero _)
  have h1 : z % pow2 f.w < pow2 f.w := Int.emod_lt_of_pos _ (pow2_pos _)
  have h2 := f.pow_w_le
  have h3 : pow2 f.w = ((2 ^ f.w : Nat) : Int) := rfl
  simp only [Format.wrap, BitVec.toNat_ofNat]
  rw [Nat.mod_eq_of_lt (by omega)]
  omega

theorem Format.wrap_fits (f : Format) (z : Int) : f.fits (f.wrap z) = true := by
  rw [f.fits_iff]
  have h := f.wrap_toNat z
  have h1 : z % pow2 f.w < pow2 f.w := Int.emod_lt_of_pos _ (pow2_pos _)
  have h3 : pow2 f.w = ((2 ^ f.w : Nat) : Int) := rfl
  omega

theorem Format.wrap_eq_iff (f : Format) (y z : Int) : f.wrap y = f.wrap z ↔ y % pow2 f.w = z % pow2 f.w := by
  constructor
  · intro h; rw [← f.wrap_toNat, ← f.wrap_toNat, h]
  · intro h
    apply BitVec.eq_of_toNat_eq
    have := f.wrap_toNat y; have := f.wrap_toNat z
    omega

/-! ## ival -/

theorem Format.negative_iff {f : Format} {x : Word} (h : f.fits x = true) :
    f.negative x = true ↔ f.signed = true ∧ 2 ^ (f.w - 1) ≤ x.toNat := by
  have hx := (f.fits_iff x).1 h
  have hw : f.w = (f.w - 1) + 1 := by have := f.w_pos; omega
  have h2 : 2 ^ f.w = 2 * 2 ^ (f.w - 1) := by conv_lhs => rw [hw, pow_succ, mul_comm]
  simp only [Format.negative, Bool.and_eq_true, BitVec.getLsbD, Nat.testBit_eq_decide_div_mod_eq, decide_eq_true_eq]
  refine and_congr_right fun _ => ?_
  have hp : 0 < 2 ^ (f.w - 1) := Nat.pow_pos (by decide)
  constructor
  · intro hm
    by_contra hlt
    rw [Nat.div_eq_of_lt (by omega)] at hm
    simp at hm
  · intro hle
    have : x.toNat / 2 ^ (f.w - 1) = 1 := Nat.div_eq_of_lt_le (by omega) (by omega)
    rw [this]

/-- `ival` and the unsigned reading differ by a multiple of 2^W. -/
theorem Format.ival_emod (f : Format) (x : Word) : f.ival x % pow2 f.w = (x.toNat : Int) % pow2 f.w := by
  unfold Format.ival
  split <;> simp

theorem Format.wrap_ival {f : Format} {x : Word} (h : f.fits x = true) : f.wrap (f.ival x) = x := by
  apply BitVec.eq_of_toNat_eq
  have h1 := f.wrap_toNat (f.ival x)
  rw [f.ival_emod] at h1
  have h2 := (f.fits_iff x).1 h
  have h3 : pow2 f.w = ((2 ^ f.w : Nat) : Int) := rfl
  rw [Int.emod_eq_of_lt (by omega) (by omega)] at h1
  omega

/-- `ival` lies in the range of the storage type (R13). -/
theorem Format.ival_holds {f : Format} {x : Word} (h : f.fits x = true) : f.holds (f.ival x) := by
  have hx := (f.fits_iff x).1 h
  have h3 : pow2 f.w = ((2 ^ f.w : Nat) : Int) := rfl
  have h4 : pow2 (f.w - 1) = ((2 ^ (f.w - 1) : Nat) : Int) := rfl
  have h5 := f.pow2_w
  have hn := Format.negative_iff h
  unfold Format.holds Format.ival
  by_cases hneg : f.negative x = true
  · have := hn.1 hneg
    rw [if_pos hneg, if_pos this.1]
    omega
  · rw [if_neg hneg]
    by_cases hs : f.signed = true
    · have : ¬ 2 ^ (f.w - 1) ≤ x.toNat := fun hle => hneg (hn.2 ⟨hs, hle⟩)
      rw [if_pos hs]; omega
    · rw [if_neg hs]; omega

/-- An integer the storage type holds is read back unchanged. -/
theorem Format.ival_wrap {f : Format} {z : Int} (h : f.holds z) : f.ival (f.wrap z) = z := by
  have h1 := f.wrap_toNat z
  have hfit := f.wrap_fits z
  have hn := Format.negative_iff hfit
  have h3 : pow2 f.w = ((2 ^ f.w : Nat) : Int) := rfl
  have h4 : pow2 (f.w - 1) = ((2 ^ (f.w - 1) : Nat) : Int) := rfl
  have h5 := f.pow2_w
  have h6 := pow2_pos (f.w - 1)
  unfold Format.holds at h
  unfold Format.ival
  by_cases hs : f.signed = true
  · rw [if_pos hs] at h
    by_cases hz : 0 ≤ z
    · rw [Int.emod_eq_of_lt hz (by omega)] at h1
      have : ¬ f.negative (f.wrap z) = true := fun hc => by have := (hn.1 hc).2; omega
      rw [if_neg this, h1]
    · have : z % pow2 f.w = z + pow2 f.w := by
        rw [← Int.add_emod_right]; exact Int.emod_eq_of_lt (by omega) (by omega)
      rw [this] at h1
      have : f.negative (f.wrap z) = true := hn.2 ⟨hs, by omega⟩
      rw [if_pos this, h1]; omega
  · rw [if_neg hs] at h
    rw [Int.emod_eq_of_lt h.1 h.2] at h1
    have : ¬ f.negative (f.wrap z) = true := fun hc => hs (hn.1 hc).1
    rw [if_neg this, h1]

theorem Format.ival_injective {f : Format} {x y : Word} (hx : f.fits x = true) (hy : f.fits y = true)
    (h : f.ival x = f.ival y) : x = y := by
  rw [← Format.wrap_ival hx, h, Format.wrap_ival hy]

/-- `ival` is the library's reading of a W-bit vector. -/
theorem Format.ival_eq_value {f : Format} {x : Word} (h : f.fits x = true) : f.ival x = f.value x := by
  have hx := (f.fits_iff x).1 h
  have hn := Format.negative_iff h
  have hw := f.w_pos
  have hw2 : 2 ^ f.w = 2 * 2 ^ (f.w - 1) := by
    have : f.w = (f.w - 1) + 1 := by omega
    conv_lhs => rw [this, pow_succ, mul_comm]
  have h3 : pow2 f.w = ((2 ^ f.w : Nat) : Int) := rfl
  have hset : (x.setWidth f.w).toNat = x.toNat := by simp [BitVec.toNat_setWidth, Nat.mod_eq_of_lt hx]
  unfold Format.ival Format.value
  by_cases hs : f.signed = true
  · rw [if_pos hs, BitVec.toInt_eq_toNat_cond, hset]
    by_cases hneg : f.negative x = true
    · have := (hn.1 hneg).2
      rw [if_pos hneg, if_neg (by omega), h3]
    · have : ¬ 2 ^ (f.w - 1) ≤ x.toNat := fun hle => hneg (hn.2 ⟨hs, hle⟩)
      rw [if_neg hneg, if_pos (by omega)]
  · rw [if_neg hs, hset, if_neg (fun hc => hs (hn.1 hc).1)]

/-- `wrap` is the library's W-bit pattern of an integer. -/
theorem Format.wrap_eq_pattern (f : Format) (z : Int) : f.wrap z = f.pattern z := by
  apply BitVec.eq_of_toNat_eq
  have h1 := f.wrap_toNat z
  have h0 : 0 ≤ z % pow2 f.w := Int.emod_nonneg _ (pow2_ne_zero _)
  have h2 : z % pow2 f.w < pow2 f.w := Int.emod_lt_of_pos _ (pow2_pos _)
  have h3 : pow2 f.w = ((2 ^ f.w : Nat) : Int) := rfl
  have h4 := f.pow_w_le
  rw [h3] at h0 h1 h2
  have h5 : ((BitVec.ofInt f.w z).toNat : Int) = z % ((2 ^ f.w : Nat) : Int) := by
    rw [BitVec.toNat_ofInt]; exact Int.toNat_of_nonneg h0
  simp only [Format.pattern, BitVec.toNat_setWidth]
  rw [Nat.mod_eq_of_lt (by omega)]
  omega

/-! ## clz -/

theorem leadingZeros_le (n : Nat) (x : Word) : leadingZeros n x ≤ n := by
  induction n with
  | zero => simp [leadingZeros]
  | succ n ih => simp only [leadingZeros]; split <;> omega

/-- The bit below the leading zeros is the highest set bit. -/
theorem leadingZeros_spec (n : Nat) (x : Word) (hx : x.toNat < 2 ^ n) (h0 : x.toNat ≠ 0) :
    leadingZeros n x < n ∧ 2 ^ (n - leadingZeros n x - 1) ≤ x.toNat ∧ x.toNat < 2 ^ (n - leadingZeros n x) := by
  induction n with
  | zero => exact absurd (by simpa using hx) h0
  | succ n ih =>
    simp only [leadingZeros]
    by_cases hb : x.getLsbD n = true
    · rw [if_pos hb]
      refine ⟨by omega, ?_, by simpa using hx⟩
      exact Nat.ge_two_pow_of_testBit hb
    · rw [if_neg hb]
      have hlt : x.toNat < 2 ^ n := by
        refine Nat.lt_pow_two_of_testBit _ fun i hi => ?_
        rcases Nat.lt_or_ge n i with h | h
        · exact Nat.testBit_lt_two_pow (lt_of_lt_of_le hx (Nat.pow_le_pow_right (by decide) h))
        · have : i = n := by omega
          subst this
          simpa [BitVec.getLsbD] using hb
      obtain ⟨h1, h2, h3⟩ := ih hlt
      have e1 : n + 1 - (leadingZeros n x + 1) = n - leadingZeros n x := by omega
      rw [e1]
      exact ⟨by omega, h2, h3⟩

end Sys2Proof
end

