-- ==== Sys2Proof/Laws/Decode.lean ====
section
/-!
SUPPORT. The layout of the command word (30_encoding.md R50): its width, its op field, and that the fields come back out
of it.
-/

namespace Sys2Proof

theorem Cmd.wf_iff (f : Format) (k : Cmd) :
    k.wf f = true ↔ f.fits k.a = true ∧ f.fits k.b = true ∧ f.fits k.c = true := by
  simp [Cmd.wf, and_assoc]

theorem Cmd.onPorts_wf (f : Format) (k : Cmd) : (k.onPorts f).wf f = true := by
  simp [Cmd.wf, Cmd.onPorts, Format.port_fits]

theorem Cmd.onPorts_of_wf {f : Format} {k : Cmd} (h : k.wf f = true) : k.onPorts f = k := by
  obtain ⟨ha, hb, hc⟩ := (k.wf_iff f).1 h
  simp [Cmd.onPorts, Format.port_of_fits ha, Format.port_of_fits hb, Format.port_of_fits hc]

/-- The three operand fields of the word, below the op field. -/
def Cmd.operandBits (n : Nat) (k : Cmd) : Nat := k.a.toNat + k.b.toNat * 2 ^ n + k.c.toNat * 2 ^ (2 * n)

theorem Cmd.operandBits_lt {n : Nat} {k : Cmd} (ha : k.a.toNat < 2 ^ n) (hb : k.b.toNat < 2 ^ n)
    (hc : k.c.toNat < 2 ^ n) : k.operandBits n < 2 ^ (3 * n) := by
  have e2 : 2 ^ (2 * n) = 2 ^ n * 2 ^ n := by rw [two_mul, pow_add]
  have e3 : 2 ^ (3 * n) = 2 ^ n * (2 ^ n * 2 ^ n) := by rw [← e2, ← pow_add]; congr 1; omega
  unfold Cmd.operandBits
  rw [e2, e3]
  nlinarith [Nat.mul_le_mul_right (2 ^ n) hb, Nat.mul_le_mul_right (2 ^ n * 2 ^ n) hc]

theorem Cmd.toWord_eq (n : Nat) (k : Cmd) : k.toWord n = k.operandBits n + k.op.toNat * 2 ^ (3 * n) := rfl

/-- The op field of the word (R50). -/
theorem Cmd.toWord_op {n : Nat} {k : Cmd} (ha : k.a.toNat < 2 ^ n) (hb : k.b.toNat < 2 ^ n)
    (hc : k.c.toNat < 2 ^ n) : k.toWord n / 2 ^ (3 * n) = k.op.toNat := by
  have h := Cmd.operandBits_lt ha hb hc
  rw [Cmd.toWord_eq, Nat.add_mul_div_right _ _ (by omega), Nat.div_eq_of_lt h, zero_add]

/-- A command word has 4 + 3W bits (R50). -/
theorem Cmd.toWord_lt {n : Nat} {k : Cmd} (ha : k.a.toNat < 2 ^ n) (hb : k.b.toNat < 2 ^ n)
    (hc : k.c.toNat < 2 ^ n) : k.toWord n < 2 ^ (4 + 3 * n) := by
  have h := Cmd.operandBits_lt ha hb hc
  have ho : k.op.toNat ≤ 15 := by have := k.op.isLt; omega
  rw [Cmd.toWord_eq, pow_add]
  have := Nat.mul_le_mul_right (2 ^ (3 * n)) ho
  omega

/-- The fields come back out of the word. -/
theorem Cmd.ofWord_toWord {n : Nat} {k : Cmd} (ha : k.a.toNat < 2 ^ n) (hb : k.b.toNat < 2 ^ n)
    (hc : k.c.toNat < 2 ^ n) : Cmd.ofWord n (k.toWord n) = k := by
  have hop := Cmd.toWord_op ha hb hc
  have e2 : 2 ^ (2 * n) = 2 ^ n * 2 ^ n := by rw [two_mul, pow_add]
  have e3 : 2 ^ (3 * n) = 2 ^ n * (2 ^ n * 2 ^ n) := by rw [← e2, ← pow_add]; congr 1; omega
  have hp : 0 < 2 ^ n := Nat.pow_pos (by decide)
  have h1 : k.toWord n = k.a.toNat + (k.b.toNat + (k.c.toNat + k.op.toNat * 2 ^ n) * 2 ^ n) * 2 ^ n := by
    rw [Cmd.toWord_eq, Cmd.operandBits, e3, e2]; ring
  have hA : k.toWord n % 2 ^ n = k.a.toNat := by rw [h1, Nat.add_mul_mod_self_right, Nat.mod_eq_of_lt ha]
  have hq : k.toWord n / 2 ^ n = k.b.toNat + (k.c.toNat + k.op.toNat * 2 ^ n) * 2 ^ n := by
    rw [h1, Nat.add_mul_div_right _ _ hp, Nat.div_eq_of_lt ha, zero_add]
  have hB : k.toWord n / 2 ^ n % 2 ^ n = k.b.toNat := by rw [hq, Nat.add_mul_mod_self_right, Nat.mod_eq_of_lt hb]
  have hC : k.toWord n / 2 ^ (2 * n) % 2 ^ n = k.c.toNat := by
    rw [e2, ← Nat.div_div_eq_div_mul, hq, Nat.add_mul_div_right _ _ hp, Nat.div_eq_of_lt hb, zero_add,
      Nat.add_mul_mod_self_right, Nat.mod_eq_of_lt hc]
  simp [Cmd.ofWord, hop, hA, hB, hC]

/-- The operand fields of the encoded word of a well-formed command fit their ports. -/
theorem Instr.toCmd_wf {f : Format} {i : Instr} (h : i.wf f = true) : i.toCmd.wf f = true := by
  have h0 : f.fits 0 = true := by rw [f.fits_iff]; exact Nat.pow_pos (by decide)
  rw [Cmd.wf_iff]
  cases i <;>
    simp_all [Instr.wf, Instr.toCmd, Instr.operandA, Instr.operandB, Instr.operandC]

/-- The decoder gives well-formed commands from fields that fit their ports. -/
theorem decodeCmd_wf {f : Format} {k : Cmd} (h : k.wf f = true) : (decodeCmd k).wf f = true := by
  obtain ⟨ha, hb, hc⟩ := (Cmd.wf_iff f _).1 h
  unfold decodeCmd
  split <;> simp [Instr.wf, ha, hb, hc]

/-- The decoder reads a command from its four fields. -/
theorem decodeCmd_toCmd (i : Instr) : decodeCmd i.toCmd = i := by cases i <;> rfl

end Sys2Proof
end

