-- ==== Sys2Proof/Laws/State.lean ====
section
/-!
SUPPORT. One lemma per field per update of State, true by rfl, so that no later proof unfolds a record update.
-/

namespace Sys2Proof.Machine

open Sys2Proof

/-! ## complete -/

@[simp] theorem complete_cfg (s : State) : s.complete.cfg = s.cfg := rfl
@[simp] theorem complete_res (s : State) : s.complete.res = s.res := rfl
@[simp] theorem complete_cres (s : State) : s.complete.cres = s.cres := rfl
@[simp] theorem complete_cc (s : State) : s.complete.cc = s.cc := rfl
@[simp] theorem complete_status (s : State) : s.complete.status = s.status := rfl
@[simp] theorem complete_fsr (s : State) : s.complete.fsr = s.fsr := rfl
@[simp] theorem complete_busy (s : State) : s.complete.busy = false := rfl
@[simp] theorem complete_rvalid (s : State) : s.complete.rvalid = true := rfl
@[simp] theorem complete_cmdq (s : State) : s.complete.cmdq = s.cmdq := rfl
@[simp] theorem complete_remaining (s : State) : s.complete.remaining = s.remaining := rfl
@[simp] theorem complete_inputs (s : State) : s.complete.inputs = s.inputs := rfl
@[simp] theorem complete_draws (s : State) : s.complete.draws = s.draws := rfl
@[simp] theorem complete_specified (s : State) : s.complete.specified = s.specified := rfl

/-! ## finishRes -/

@[simp] theorem finishRes_cfg (v : Word) (s : State) : (finishRes v s).cfg = s.cfg := rfl
@[simp] theorem finishRes_res (v : Word) (s : State) : (finishRes v s).res = v := rfl
@[simp] theorem finishRes_cres (v : Word) (s : State) : (finishRes v s).cres = s.cres := rfl
@[simp] theorem finishRes_cc (v : Word) (s : State) : (finishRes v s).cc = s.cc := rfl
@[simp] theorem finishRes_status (v : Word) (s : State) : (finishRes v s).status = statusOk := rfl
@[simp] theorem finishRes_fsr (v : Word) (s : State) : (finishRes v s).fsr = s.fsr := rfl
@[simp] theorem finishRes_busy (v : Word) (s : State) : (finishRes v s).busy = false := rfl
@[simp] theorem finishRes_rvalid (v : Word) (s : State) : (finishRes v s).rvalid = true := rfl
@[simp] theorem finishRes_cmdq (v : Word) (s : State) : (finishRes v s).cmdq = s.cmdq := rfl
@[simp] theorem finishRes_remaining (v : Word) (s : State) : (finishRes v s).remaining = s.remaining := rfl
@[simp] theorem finishRes_inputs (v : Word) (s : State) : (finishRes v s).inputs = s.inputs := rfl
@[simp] theorem finishRes_draws (v : Word) (s : State) : (finishRes v s).draws = s.draws := rfl
@[simp] theorem finishRes_specified (v : Word) (s : State) :
    (finishRes v s).specified = { s.specified with res := true, status := true } := rfl

/-! ## finishCres -/

@[simp] theorem finishCres_cfg (v : Word) (s : State) : (finishCres v s).cfg = s.cfg := rfl
@[simp] theorem finishCres_res (v : Word) (s : State) : (finishCres v s).res = s.res := rfl
@[simp] theorem finishCres_cres (v : Word) (s : State) : (finishCres v s).cres = v := rfl
@[simp] theorem finishCres_cc (v : Word) (s : State) : (finishCres v s).cc = s.cc := rfl
@[simp] theorem finishCres_status (v : Word) (s : State) : (finishCres v s).status = statusOk := rfl
@[simp] theorem finishCres_fsr (v : Word) (s : State) : (finishCres v s).fsr = s.fsr := rfl
@[simp] theorem finishCres_busy (v : Word) (s : State) : (finishCres v s).busy = false := rfl
@[simp] theorem finishCres_rvalid (v : Word) (s : State) : (finishCres v s).rvalid = true := rfl
@[simp] theorem finishCres_cmdq (v : Word) (s : State) : (finishCres v s).cmdq = s.cmdq := rfl
@[simp] theorem finishCres_remaining (v : Word) (s : State) : (finishCres v s).remaining = s.remaining := rfl
@[simp] theorem finishCres_inputs (v : Word) (s : State) : (finishCres v s).inputs = s.inputs := rfl
@[simp] theorem finishCres_draws (v : Word) (s : State) : (finishCres v s).draws = s.draws := rfl
@[simp] theorem finishCres_specified (v : Word) (s : State) :
    (finishCres v s).specified = { s.specified with cres := true, status := true } := rfl

/-! ## finishCc -/

@[simp] theorem finishCc_cfg (flags : BitVec 3) (s : State) : (finishCc flags s).cfg = s.cfg := rfl
@[simp] theorem finishCc_res (flags : BitVec 3) (s : State) : (finishCc flags s).res = s.res := rfl
@[simp] theorem finishCc_cres (flags : BitVec 3) (s : State) : (finishCc flags s).cres = s.cres := rfl
@[simp] theorem finishCc_cc (flags : BitVec 3) (s : State) : (finishCc flags s).cc = flags := rfl
@[simp] theorem finishCc_status (flags : BitVec 3) (s : State) : (finishCc flags s).status = statusOk := rfl
@[simp] theorem finishCc_fsr (flags : BitVec 3) (s : State) : (finishCc flags s).fsr = s.fsr := rfl
@[simp] theorem finishCc_busy (flags : BitVec 3) (s : State) : (finishCc flags s).busy = false := rfl
@[simp] theorem finishCc_rvalid (flags : BitVec 3) (s : State) : (finishCc flags s).rvalid = true := rfl
@[simp] theorem finishCc_cmdq (flags : BitVec 3) (s : State) : (finishCc flags s).cmdq = s.cmdq := rfl
@[simp] theorem finishCc_remaining (flags : BitVec 3) (s : State) : (finishCc flags s).remaining = s.remaining := rfl
@[simp] theorem finishCc_inputs (flags : BitVec 3) (s : State) : (finishCc flags s).inputs = s.inputs := rfl
@[simp] theorem finishCc_draws (flags : BitVec 3) (s : State) : (finishCc flags s).draws = s.draws := rfl
@[simp] theorem finishCc_specified (flags : BitVec 3) (s : State) :
    (finishCc flags s).specified = { s.specified with cc := true, status := true } := rfl

/-! ## raise -/

@[simp] theorem raise_cfg (k : CmdFault) (s : State) : (raise k s).cfg = s.cfg := rfl
@[simp] theorem raise_res (k : CmdFault) (s : State) :
    (raise k s).res = if k.hasDestination then freeRaw s.cfg.src s.draws else s.res := rfl
@[simp] theorem raise_cres (k : CmdFault) (s : State) : (raise k s).cres = s.cres := rfl
@[simp] theorem raise_cc (k : CmdFault) (s : State) : (raise k s).cc = s.cc := rfl
@[simp] theorem raise_status (k : CmdFault) (s : State) : (raise k s).status = k.status := rfl
@[simp] theorem raise_fsr (k : CmdFault) (s : State) : (raise k s).fsr = s.fsr ||| k.sticky := rfl
@[simp] theorem raise_busy (k : CmdFault) (s : State) : (raise k s).busy = false := rfl
@[simp] theorem raise_rvalid (k : CmdFault) (s : State) : (raise k s).rvalid = true := rfl
@[simp] theorem raise_cmdq (k : CmdFault) (s : State) : (raise k s).cmdq = s.cmdq := rfl
@[simp] theorem raise_remaining (k : CmdFault) (s : State) : (raise k s).remaining = s.remaining := rfl
@[simp] theorem raise_inputs (k : CmdFault) (s : State) : (raise k s).inputs = s.inputs := rfl
@[simp] theorem raise_draws (k : CmdFault) (s : State) :
    (raise k s).draws = if k.hasDestination then s.draws + 1 else s.draws := rfl
@[simp] theorem raise_specified (k : CmdFault) (s : State) :
    (raise k s).specified = { s.specified with res := !k.hasDestination && s.specified.res, status := true } := rfl

/-! ## sampled -/

@[simp] theorem sampled_cfg (s : State) : s.sampled.cfg = s.cfg := rfl
@[simp] theorem sampled_res (s : State) : s.sampled.res = s.res := rfl
@[simp] theorem sampled_cres (s : State) : s.sampled.cres = s.cres := rfl
@[simp] theorem sampled_cc (s : State) : s.sampled.cc = s.cc := rfl
@[simp] theorem sampled_status (s : State) : s.sampled.status = s.status := rfl
@[simp] theorem sampled_fsr (s : State) : s.sampled.fsr = s.fsr := rfl
@[simp] theorem sampled_busy (s : State) : s.sampled.busy = s.busy := rfl
@[simp] theorem sampled_rvalid (s : State) : s.sampled.rvalid = s.rvalid := rfl
@[simp] theorem sampled_cmdq (s : State) : s.sampled.cmdq = s.cmdq := rfl
@[simp] theorem sampled_remaining (s : State) : s.sampled.remaining = s.remaining := rfl
@[simp] theorem sampled_inputs (s : State) : s.sampled.inputs = s.inputs.tail := rfl
@[simp] theorem sampled_draws (s : State) : s.sampled.draws = s.draws := rfl
@[simp] theorem sampled_specified (s : State) : s.sampled.specified = s.specified := rfl

/-! ## resetEdge -/

@[simp] theorem resetEdge_cfg (s : State) : (resetEdge s).cfg = s.cfg := rfl
@[simp] theorem resetEdge_res (s : State) : (resetEdge s).res = freeRaw s.cfg.src s.draws := rfl
@[simp] theorem resetEdge_cres (s : State) : (resetEdge s).cres = freeRaw s.cfg.dst (s.draws + 1) := rfl
@[simp] theorem resetEdge_cc (s : State) : (resetEdge s).cc = freeBits 3 (s.draws + 2) := rfl
@[simp] theorem resetEdge_status (s : State) : (resetEdge s).status = freeBits 2 (s.draws + 3) := rfl
@[simp] theorem resetEdge_fsr (s : State) : (resetEdge s).fsr = 0 := rfl
@[simp] theorem resetEdge_busy (s : State) : (resetEdge s).busy = false := rfl
@[simp] theorem resetEdge_rvalid (s : State) : (resetEdge s).rvalid = false := rfl
@[simp] theorem resetEdge_cmdq (s : State) :
    (resetEdge s).cmdq = ⟨freeBits 4 (s.draws + 4), freeRaw s.cfg.src (s.draws + 5), freeRaw s.cfg.src (s.draws + 6), freeRaw s.cfg.src (s.draws + 7)⟩ := rfl
@[simp] theorem resetEdge_remaining (s : State) : (resetEdge s).remaining = 0 := rfl
@[simp] theorem resetEdge_inputs (s : State) : (resetEdge s).inputs = s.inputs := rfl
@[simp] theorem resetEdge_draws (s : State) : (resetEdge s).draws = s.draws + 8 := rfl
@[simp] theorem resetEdge_specified (s : State) : (resetEdge s).specified = .nothing := rfl

/-! ## accept -/

@[simp] theorem accept_cfg (k : Cmd) (s : State) : (accept k s).cfg = s.cfg := rfl
@[simp] theorem accept_res (k : Cmd) (s : State) : (accept k s).res = s.res := rfl
@[simp] theorem accept_cres (k : Cmd) (s : State) : (accept k s).cres = s.cres := rfl
@[simp] theorem accept_cc (k : Cmd) (s : State) : (accept k s).cc = s.cc := rfl
@[simp] theorem accept_status (k : Cmd) (s : State) : (accept k s).status = s.status := rfl
@[simp] theorem accept_fsr (k : Cmd) (s : State) : (accept k s).fsr = s.fsr := rfl
@[simp] theorem accept_busy (k : Cmd) (s : State) : (accept k s).busy = true := rfl
@[simp] theorem accept_rvalid (k : Cmd) (s : State) : (accept k s).rvalid = false := rfl
@[simp] theorem accept_cmdq (k : Cmd) (s : State) : (accept k s).cmdq = k.onPorts s.cfg.src := rfl
@[simp] theorem accept_remaining (k : Cmd) (s : State) :
    (accept k s).remaining = Config.extraEdges s.cfg (k.onPorts s.cfg.src) s.draws := rfl
@[simp] theorem accept_inputs (k : Cmd) (s : State) : (accept k s).inputs = s.inputs := rfl
@[simp] theorem accept_draws (k : Cmd) (s : State) : (accept k s).draws = s.draws + 1 := rfl
@[simp] theorem accept_specified (k : Cmd) (s : State) : (accept k s).specified = s.specified := rfl

/-! ## wait -/

@[simp] theorem wait_cfg (s : State) : (wait s).cfg = s.cfg := rfl
@[simp] theorem wait_res (s : State) : (wait s).res = s.res := rfl
@[simp] theorem wait_cres (s : State) : (wait s).cres = s.cres := rfl
@[simp] theorem wait_cc (s : State) : (wait s).cc = s.cc := rfl
@[simp] theorem wait_status (s : State) : (wait s).status = s.status := rfl
@[simp] theorem wait_fsr (s : State) : (wait s).fsr = s.fsr := rfl
@[simp] theorem wait_busy (s : State) : (wait s).busy = s.busy := rfl
@[simp] theorem wait_rvalid (s : State) : (wait s).rvalid = s.rvalid := rfl
@[simp] theorem wait_cmdq (s : State) : (wait s).cmdq = s.cmdq := rfl
@[simp] theorem wait_remaining (s : State) : (wait s).remaining = s.remaining - 1 := rfl
@[simp] theorem wait_inputs (s : State) : (wait s).inputs = s.inputs := rfl
@[simp] theorem wait_draws (s : State) : (wait s).draws = s.draws := rfl
@[simp] theorem wait_specified (s : State) : (wait s).specified = s.specified := rfl

/-! ## acceptedAt -/

@[simp] theorem acceptedAt_cfg (k : Cmd) (s : State) : (acceptedAt k s).cfg = s.cfg := rfl
@[simp] theorem acceptedAt_res (k : Cmd) (s : State) : (acceptedAt k s).res = s.res := rfl
@[simp] theorem acceptedAt_cres (k : Cmd) (s : State) : (acceptedAt k s).cres = s.cres := rfl
@[simp] theorem acceptedAt_cc (k : Cmd) (s : State) : (acceptedAt k s).cc = s.cc := rfl
@[simp] theorem acceptedAt_status (k : Cmd) (s : State) : (acceptedAt k s).status = s.status := rfl
@[simp] theorem acceptedAt_fsr (k : Cmd) (s : State) : (acceptedAt k s).fsr = s.fsr := rfl
@[simp] theorem acceptedAt_busy (k : Cmd) (s : State) : (acceptedAt k s).busy = true := rfl
@[simp] theorem acceptedAt_rvalid (k : Cmd) (s : State) : (acceptedAt k s).rvalid = false := rfl
@[simp] theorem acceptedAt_cmdq (k : Cmd) (s : State) : (acceptedAt k s).cmdq = k.onPorts s.cfg.src := rfl
@[simp] theorem acceptedAt_remaining (k : Cmd) (s : State) : (acceptedAt k s).remaining = 0 := rfl
@[simp] theorem acceptedAt_inputs (k : Cmd) (s : State) : (acceptedAt k s).inputs = s.inputs := rfl
@[simp] theorem acceptedAt_draws (k : Cmd) (s : State) : (acceptedAt k s).draws = s.draws + 1 := rfl
@[simp] theorem acceptedAt_specified (k : Cmd) (s : State) : (acceptedAt k s).specified = s.specified := rfl

/-! ## holding -/

@[simp] theorem holding_cfg (k : Cmd) (s : State) : (s.holding k).cfg = s.cfg := rfl
@[simp] theorem holding_res (k : Cmd) (s : State) : (s.holding k).res = s.res := rfl
@[simp] theorem holding_cres (k : Cmd) (s : State) : (s.holding k).cres = s.cres := rfl
@[simp] theorem holding_cc (k : Cmd) (s : State) : (s.holding k).cc = s.cc := rfl
@[simp] theorem holding_status (k : Cmd) (s : State) : (s.holding k).status = s.status := rfl
@[simp] theorem holding_fsr (k : Cmd) (s : State) : (s.holding k).fsr = s.fsr := rfl
@[simp] theorem holding_busy (k : Cmd) (s : State) : (s.holding k).busy = true := rfl
@[simp] theorem holding_rvalid (k : Cmd) (s : State) : (s.holding k).rvalid = false := rfl
@[simp] theorem holding_cmdq (k : Cmd) (s : State) : (s.holding k).cmdq = k := rfl
@[simp] theorem holding_remaining (k : Cmd) (s : State) : (s.holding k).remaining = 0 := rfl
@[simp] theorem holding_inputs (k : Cmd) (s : State) :
    (s.holding k).inputs = if s.ports.rst then .idle :: s.inputs else s.inputs := rfl
@[simp] theorem holding_draws (k : Cmd) (s : State) : (s.holding k).draws = s.draws := rfl
@[simp] theorem holding_specified (k : Cmd) (s : State) : (s.holding k).specified = s.specified := rfl

/-! ## conclude -/

@[simp] theorem conclude_ok (v : Word) (s : State) : conclude (.ok v) s = finishRes v s := rfl
@[simp] theorem conclude_error (k : CmdFault) (s : State) : conclude (.error k) s = raise k s := rfl

/-! ## The reset state -/

@[simp] theorem resetOf_cfg (cfg : Cfg) : (State.resetOf cfg).cfg = cfg := rfl
@[simp] theorem resetOf_res (cfg : Cfg) : (State.resetOf cfg).res = 0 := rfl
@[simp] theorem resetOf_cres (cfg : Cfg) : (State.resetOf cfg).cres = 0 := rfl
@[simp] theorem resetOf_cc (cfg : Cfg) : (State.resetOf cfg).cc = 0 := rfl
@[simp] theorem resetOf_status (cfg : Cfg) : (State.resetOf cfg).status = 0 := rfl
@[simp] theorem resetOf_fsr (cfg : Cfg) : (State.resetOf cfg).fsr = 0 := rfl
@[simp] theorem resetOf_busy (cfg : Cfg) : (State.resetOf cfg).busy = false := rfl
@[simp] theorem resetOf_rvalid (cfg : Cfg) : (State.resetOf cfg).rvalid = false := rfl
@[simp] theorem resetOf_cmdq (cfg : Cfg) : (State.resetOf cfg).cmdq = ⟨0, 0, 0, 0⟩ := rfl
@[simp] theorem resetOf_remaining (cfg : Cfg) : (State.resetOf cfg).remaining = 0 := rfl
@[simp] theorem resetOf_inputs (cfg : Cfg) : (State.resetOf cfg).inputs = [] := rfl
@[simp] theorem resetOf_draws (cfg : Cfg) : (State.resetOf cfg).draws = 0 := rfl
@[simp] theorem resetOf_specified (cfg : Cfg) : (State.resetOf cfg).specified = .nothing := rfl

end Sys2Proof.Machine
end

