-- ==== Sys2Proof/Laws/Exec.lean ====
section
/-!
SUPPORT. Everything a completion and a step can do, said once: later proofs cite these instead of unfolding the
meanings.
-/

namespace Sys2Proof.Machine

open Sys2Proof

/-! ## Widths of the values the sub-units write -/

theorem freeRaw_fits (f : Format) (n : Nat) : f.fits (freeRaw f n) = true := f.port_fits _

theorem shr1_fits (f : Format) (x : Word) : f.fits (f.shr1 x) = true := f.wrap_fits _

/-- A division gives a W-bit value or DIV_BY_ZERO, the latter exactly for a zero divisor (R95, R97). -/
theorem divfValue_cases (f : Format) (a b : Word) :
    (f.ival b = 0 ∧ divfValue f a b = .error .divByZero) ∨
    (f.ival b ≠ 0 ∧ divfValue f a b = .ok (f.wrap (fastQuotient (scaledDividend f a) (f.ival b)))) := by
  unfold divfValue; split <;> simp_all

theorem divrValue_cases (f : Format) (a b : Word) :
    (f.ival b = 0 ∧ divrValue f a b = .error .divByZero) ∨
    (f.ival b ≠ 0 ∧ divrValue f a b = .ok (f.wrap (roundedQuotient (scaledDividend f a) (f.ival b)))) := by
  unfold divrValue; split <;> simp_all

/-- A result is good for `f`: a value of W bits, or one of the two faults with a destination. -/
def GoodResult (f : Format) (r : Except CmdFault Word) : Prop :=
  (∃ v, r = .ok v ∧ f.fits v = true) ∨ r = .error .divByZero ∨ r = .error .sqrtNegative

theorem divfValue_good (f : Format) (a b : Word) : GoodResult f (divfValue f a b) := by
  rcases divfValue_cases f a b with ⟨_, h⟩ | ⟨_, h⟩
  · exact .inr (.inl h)
  · exact .inl ⟨_, h, f.wrap_fits _⟩

theorem divrValue_good (f : Format) (a b : Word) : GoodResult f (divrValue f a b) := by
  rcases divrValue_cases f a b with ⟨_, h⟩ | ⟨_, h⟩
  · exact .inr (.inl h)
  · exact .inl ⟨_, h, f.wrap_fits _⟩

theorem fastStep_good (f : Format) (a y : Word) : GoodResult f (fastStep f a y) := by
  unfold fastStep
  rcases divfValue_cases f a y with ⟨_, h⟩ | ⟨_, h⟩ <;> rw [h]
  · exact .inr (.inl rfl)
  · exact .inl ⟨_, rfl, shr1_fits _ _⟩

theorem preciseStep_good (f : Format) (a y : Word) : GoodResult f (preciseStep f a y) := by
  unfold preciseStep
  rcases divrValue_cases f a y with ⟨_, h⟩ | ⟨_, h⟩ <;> rw [h]
  · exact .inr (.inl rfl)
  · exact divrValue_good _ _ _

/-- Repeating a good step is good. -/
theorem repeatStep_good {f : Format} {body : Word → Except CmdFault Word} (hb : ∀ y, GoodResult f (body y)) (n : Nat)
    (y : Word) (hy : f.fits y = true) : GoodResult f (repeatStep body n y) := by
  induction n generalizing y with
  | zero => exact .inl ⟨y, rfl, hy⟩
  | succ n ih =>
    rcases hb y with ⟨v, h, hv⟩ | h | h <;> simp only [repeatStep, h]
    · exact ih v hv
    · exact .inr (.inl rfl)
    · exact .inr (.inr rfl)

theorem iterateRoot_good (cfg : Cfg) (a y : Word) (hy : cfg.src.fits y = true) :
    GoodResult cfg.src (iterateRoot cfg a y) := by
  unfold iterateRoot
  rcases repeatStep_good (fun y => fastStep_good cfg.src a y) cfg.nFast y hy with ⟨v, h, hv⟩ | h | h <;> simp only [h]
  · exact repeatStep_good (fun y => preciseStep_good cfg.src a y) _ v hv
  · exact .inr (.inl rfl)
  · exact .inr (.inr rfl)

theorem withFront_good {f : Format} {a : Word} {go : Nat → Except CmdFault Word} (hg : ∀ e, GoodResult f (go e)) :
    GoodResult f (withFront f a go) := by
  unfold withFront
  cases rootFront f a with
  | negative => exact .inr (.inr rfl)
  | zero => exact .inl ⟨_, rfl, f.wrap_fits _⟩
  | exponent e => exact hg e

theorem sqrtcValue_good (f : Format) (a : Word) : GoodResult f (sqrtcValue f a) :=
  withFront_good fun _ => .inl ⟨_, rfl, f.wrap_fits _⟩

theorem sqrtrValue_good (f : Format) (a : Word) : GoodResult f (sqrtrValue f a) :=
  withFront_good fun _ => .inl ⟨_, rfl, shr1_fits _ _⟩

theorem sqrtValue_good (cfg : Cfg) (a : Word) : GoodResult cfg.src (sqrtValue cfg a) :=
  withFront_good fun _ => iterateRoot_good _ _ _ (shr1_fits _ _)

/-! ## The next state of each command -/

@[simp] theorem exec_conv (a : Word) (s : State) :
    exec (.conv a) s = .next (finishCres (convValue s.cfg.src s.cfg.dst a) s) := rfl
@[simp] theorem exec_fromint (a : Word) (s : State) :
    exec (.fromint a) s = .next (finishRes (fromIntValue s.cfg.src a) s) := rfl
@[simp] theorem exec_toint (a : Word) (s : State) :
    exec (.toint a) s = .next (finishRes (toIntValue s.cfg.src a) s) := rfl
@[simp] theorem exec_add (a b : Word) (s : State) :
    exec (.add a b) s = .next (finishRes (addValue s.cfg.src a b) s) := rfl
@[simp] theorem exec_sub (a b : Word) (s : State) :
    exec (.sub a b) s = .next (finishRes (subValue s.cfg.src a b) s) := rfl
@[simp] theorem exec_neg (a : Word) (s : State) :
    exec (.neg a) s = .next (finishRes (negValue s.cfg.src a) s) := rfl
@[simp] theorem exec_mul (a b : Word) (s : State) :
    exec (.mul a b) s = .next (finishRes (mulValue s.cfg.src a b) s) := rfl
@[simp] theorem exec_divf (a b : Word) (s : State) :
    exec (.divf a b) s = .next (conclude (divfValue s.cfg.src a b) s) := rfl
@[simp] theorem exec_divr (a b : Word) (s : State) :
    exec (.divr a b) s = .next (conclude (divrValue s.cfg.src a b) s) := rfl
@[simp] theorem exec_abs (a : Word) (s : State) :
    exec (.abs a) s = .next (finishRes (absValue s.cfg.src a) s) := rfl
@[simp] theorem exec_clamp (a b c : Word) (s : State) :
    exec (.clamp a b c) s = .next (finishRes (clampValue s.cfg.src a b c) s) := rfl
@[simp] theorem exec_sqrtc (a : Word) (s : State) :
    exec (.sqrtc a) s = .next (conclude (sqrtcValue s.cfg.src a) s) := rfl
@[simp] theorem exec_sqrtr (a : Word) (s : State) :
    exec (.sqrtr a) s = .next (conclude (sqrtrValue s.cfg.src a) s) := rfl
@[simp] theorem exec_sqrt (a : Word) (s : State) :
    exec (.sqrt a) s = .next (conclude (sqrtValue s.cfg a) s) := rfl
@[simp] theorem exec_cmp (a b : Word) (s : State) :
    exec (.cmp a b) s = .next (finishCc (compareFlags s.cfg.src a b) s) := rfl
@[simp] theorem exec_illegal (s : State) : exec .illegal s = .next (raise .illegalOp s) := rfl

/-! ## A completion neither reads nor writes CMDQ and the host's samples -/

/-- `exec` commutes with a change of CMDQ: operands come from the decoded command alone. -/
theorem exec_with_cmdq (i : Instr) (s : State) (k : Cmd) :
    ∃ t, exec i s = .next t ∧ exec i { s with cmdq := k } = .next { t with cmdq := k } := by
  have hc : ∀ r, conclude r { s with cmdq := k } = { conclude r s with cmdq := k } := by
    intro r; cases r <;> rfl
  cases i <;> first
    | exact ⟨_, rfl, rfl⟩
    | exact ⟨_, rfl, congrArg _ (hc _)⟩

/-- `exec` commutes with a change of the host's future samples. -/
theorem exec_with_inputs (i : Instr) (s : State) (l : List PortSample) :
    ∃ t, exec i s = .next t ∧ exec i { s with inputs := l } = .next { t with inputs := l } := by
  have hc : ∀ r, conclude r { s with inputs := l } = { conclude r s with inputs := l } := by
    intro r; cases r <;> rfl
  cases i <;> first
    | exact ⟨_, rfl, rfl⟩
    | exact ⟨_, rfl, congrArg _ (hc _)⟩

/-! ## What a completion can do -/

/-- The four ways the command `i` completes; a result has W bits when the operands do. -/
inductive Completes (i : Instr) (s t : State) : Prop where
  | res (v : Word) (hv : i.wf s.cfg.src = true → s.cfg.src.fits v = true) (h : t = finishRes v s)
  | cres (v : Word) (hv : s.cfg.dst.fits v = true) (h : t = finishCres v s)
  | cc (a b : Word) (h : t = finishCc (compareFlags s.cfg.src a b) s)
  | fault (k : CmdFault) (h : t = raise k s)

theorem conclude_completes {i : Instr} {s : State} {r : Except CmdFault Word} (h : GoodResult s.cfg.src r) :
    Completes i s (conclude r s) := by
  rcases h with ⟨v, rfl, hv⟩ | rfl | rfl
  · exact .res v (fun _ => hv) rfl
  · exact .fault _ rfl
  · exact .fault _ rfl

/-- CLAMP copies one of its operands (R121). -/
theorem clampValue_fits {f : Format} {a b c : Word} (h : (Instr.clamp a b c).wf f = true) :
    f.fits (clampValue f a b c) = true := by
  simp only [Instr.wf, Bool.and_eq_true] at h
  unfold clampValue
  split
  · exact h.1.2
  · split
    · exact h.2
    · exact h.1.1

/-- Every command completes, in one of the four ways (70_reset_and_hazards.md R157). -/
theorem exec_completes (i : Instr) (s : State) : ∃ t, exec i s = .next t ∧ Completes i s t := by
  cases i with
  | conv a => exact ⟨_, rfl, .cres _ (Format.wrap_fits _ _) rfl⟩
  | fromint a => exact ⟨_, rfl, .res _ (fun _ => Format.wrap_fits _ _) rfl⟩
  | toint a => exact ⟨_, rfl, .res _ (fun _ => Format.wrap_fits _ _) rfl⟩
  | add a b => exact ⟨_, rfl, .res _ (fun _ => Format.wrap_fits _ _) rfl⟩
  | sub a b => exact ⟨_, rfl, .res _ (fun _ => Format.wrap_fits _ _) rfl⟩
  | neg a => exact ⟨_, rfl, .res _ (fun _ => Format.wrap_fits _ _) rfl⟩
  | mul a b => exact ⟨_, rfl, .res _ (fun _ => Format.wrap_fits _ _) rfl⟩
  | divf a b => exact ⟨_, rfl, conclude_completes (divfValue_good _ _ _)⟩
  | divr a b => exact ⟨_, rfl, conclude_completes (divrValue_good _ _ _)⟩
  | abs a => exact ⟨_, rfl, .res _ (fun _ => Format.wrap_fits _ _) rfl⟩
  | clamp a b c => exact ⟨_, rfl, .res _ clampValue_fits rfl⟩
  | sqrtc a => exact ⟨_, rfl, conclude_completes (sqrtcValue_good _ _)⟩
  | sqrtr a => exact ⟨_, rfl, conclude_completes (sqrtrValue_good _ _)⟩
  | sqrt a => exact ⟨_, rfl, conclude_completes (sqrtValue_good _ _)⟩
  | cmp a b => exact ⟨_, rfl, .cc a b rfl⟩
  | illegal => exact ⟨_, rfl, .fault _ rfl⟩

/-! ## What an edge can do -/

/-- The five edges and when each happens (R49, R150, R153). -/
theorem edge_cases (s : State) :
    (s.ports.rst = true ∧ s.edge = .reset) ∨
    (s.ports.rst = false ∧ s.busy = false ∧ s.ports.cmdValid = true ∧ s.edge = .accept s.ports.cmd) ∨
    (s.ports.rst = false ∧ s.busy = false ∧ s.ports.cmdValid = false ∧ s.edge = .idle) ∨
    (s.ports.rst = false ∧ s.busy = true ∧ s.remaining = 0 ∧ s.edge = .complete s.cmdq) ∨
    (s.ports.rst = false ∧ s.busy = true ∧ s.remaining ≠ 0 ∧ s.edge = .wait) := by
  unfold State.edge State.cmdReady
  cases s.ports.rst <;> cases s.busy <;> cases s.ports.cmdValid <;> by_cases h : s.remaining = 0 <;> simp [h]

/-- Flags of a comparison are one-hot (R24). -/
theorem compareFlags_oneHot (f : Format) (a b : Word) :
    compareFlags f a b = 0b001#3 ∨ compareFlags f a b = 0b010#3 ∨ compareFlags f a b = 0b100#3 := by
  unfold compareFlags
  rcases lt_trichotomy (f.ival a) (f.ival b) with h | h | h
  · simp [h, h.ne, not_lt.2 h.le]
  · simp [h]
  · simp [h, h.ne', not_lt.2 h.le]

end Sys2Proof.Machine
end

