-- ==== Sys2Proof/Laws/Intermediate.lean ====
section
/-!
SUPPORT. The intermediate type of IW bits (00_scope.md R8): widening keeps the value, narrowing is the wrap.
-/

namespace Sys2Proof

theorem Format.w_le_intermediateWidth (f : Format) : f.w ≤ f.intermediateWidth := by
  have := f.w_le
  unfold Format.intermediateWidth; split <;> omega

theorem Format.widen_toInt {f : Format} (h : f.signed = true) (x : Word) : (f.widen x).toInt = f.value x := by
  simp only [Format.widen, Format.value, h, if_true, BitVec.toInt_signExtend_of_le f.w_le_intermediateWidth]

theorem Format.widen_toNat {f : Format} (h : f.signed = false) (x : Word) : ((f.widen x).toNat : Int) = f.value x := by
  have hx := (x.setWidth f.w).isLt
  have hp := Nat.pow_le_pow_right (n := 2) (by decide) f.w_le_intermediateWidth
  simp only [Format.widen, Format.value, h, Bool.false_eq_true, if_false]
  rw [BitVec.toNat_setWidth, Nat.mod_eq_of_lt (by omega)]

/-- Narrowing is the pattern of any integer that the intermediate value is congruent to. -/
theorem Format.narrow_ofInt (f : Format) (z : Int) : f.narrow (BitVec.ofInt _ z) = f.pattern z := by
  unfold Format.narrow Format.pattern
  congr 1
  apply BitVec.eq_of_toInt_eq
  rw [BitVec.toInt_setWidth, BitVec.toInt_ofInt, BitVec.toNat_ofInt]
  have hd : ((2 ^ f.w : Nat) : Int) ∣ ((2 ^ f.intermediateWidth : Nat) : Int) := by
    exact_mod_cast Nat.pow_dvd_pow 2 f.w_le_intermediateWidth
  rw [Int.toNat_of_nonneg (Int.emod_nonneg _ (by positivity))]
  simp only [Int.bmod, Int.emod_emod_of_dvd z hd]

theorem Format.narrow_toInt (f : Format) (x : BitVec f.intermediateWidth) : f.narrow x = f.pattern x.toInt := by
  rw [← f.narrow_ofInt, BitVec.ofInt_toInt]

theorem Format.narrow_toNat (f : Format) (x : BitVec f.intermediateWidth) : f.narrow x = f.pattern x.toNat := by
  rw [← f.narrow_ofInt, BitVec.ofInt_natCast, BitVec.ofNat_toNat, BitVec.setWidth_eq]

end Sys2Proof
end

