-- ==== Sys2Proof/Laws/Newton.lean ====
section
/-!
SUPPORT. The arithmetic of one Babylonian step (44_sqrt.md R108) on integers: whatever positive value it starts from, it
ends no more than one unit below the root. SQRTR is such a step from the coarse estimate (R107).
-/

namespace Sys2Proof

/-- A fast step: the floor of the average of `y` and `X / y`. -/
theorem newton_floor_lower {X y : Int} (h0 : 0 ≤ X) (hy : 0 < y) : X < ((y + X / y) / 2 + 1) ^ 2 := by
  have hX : X < (X / y + 1) * y := Int.lt_ediv_add_one_mul_self X hy
  have hq : 0 ≤ X / y := Int.ediv_nonneg h0 hy.le
  generalize X / y = q at *
  have hm : y + q ≤ 2 * ((y + q) / 2) + 1 := by omega
  have hm0 : 0 ≤ (y + q) / 2 := by omega
  generalize (y + q) / 2 = m at *
  nlinarith [sq_nonneg (y - (q + 1))]

/-- A precise step: `q` any integer not below the floor of `X / y`, the average rounded up. -/
theorem newton_rounded_lower {X y q : Int} (hy : 0 < y) (hq : X / y ≤ q) (hnn : 0 ≤ y + q) :
    X < ((y + q + 1) / 2 + 1) ^ 2 := by
  have hX : X < (X / y + 1) * y := Int.lt_ediv_add_one_mul_self X hy
  have hX' : X < (q + 1) * y := by nlinarith
  have hm : y + q ≤ 2 * ((y + q + 1) / 2) := by omega
  have hm0 : 0 ≤ (y + q + 1) / 2 := by omega
  generalize (y + q + 1) / 2 = m at *
  nlinarith [sq_nonneg (y - (q + 1))]

end Sys2Proof
end

