-- ==== Sys2Proof/Laws/PerInstr.lean ====
section
/-!
SUPPORT. Statements made per instruction. Family `EncodedWord`: the encoded word of a command has the 4 + 3W bits of CMD
and the command's operation code in bits 3W+3..3W (30_encoding.md R50, R52).
-/

namespace Sys2Proof.Laws.EncodedWord

open Sys2Proof

def Statement (i : Instr) : Prop :=
  ∀ f : Format, i.wf f = true →
    encode f i < 2 ^ (4 + 3 * f.w) ∧ encode f i / 2 ^ (3 * f.w) = i.opcode.toNat

/-- What every constructor's lemma rests on: the operand fields fit. -/
theorem of_wf (i : Instr) : Statement i := by
  intro f h
  obtain ⟨ha, hb, hc⟩ := (Cmd.wf_iff f _).1 (Instr.toCmd_wf h)
  rw [f.fits_iff] at ha hb hc
  exact ⟨Cmd.toWord_lt ha hb hc, Cmd.toWord_op ha hb hc⟩

theorem conv (a : Word) : Statement (.conv a) := of_wf _
theorem fromint (a : Word) : Statement (.fromint a) := of_wf _
theorem toint (a : Word) : Statement (.toint a) := of_wf _
theorem add (a b : Word) : Statement (.add a b) := of_wf _
theorem sub (a b : Word) : Statement (.sub a b) := of_wf _
theorem neg (a : Word) : Statement (.neg a) := of_wf _
theorem mul (a b : Word) : Statement (.mul a b) := of_wf _
theorem divf (a b : Word) : Statement (.divf a b) := of_wf _
theorem divr (a b : Word) : Statement (.divr a b) := of_wf _
theorem abs (a : Word) : Statement (.abs a) := of_wf _
theorem clamp (a b c : Word) : Statement (.clamp a b c) := of_wf _
theorem sqrtc (a : Word) : Statement (.sqrtc a) := of_wf _
theorem sqrtr (a : Word) : Statement (.sqrtr a) := of_wf _
theorem sqrt (a : Word) : Statement (.sqrt a) := of_wf _
theorem cmp (a b : Word) : Statement (.cmp a b) := of_wf _
theorem illegal : Statement .illegal := of_wf _

end Sys2Proof.Laws.EncodedWord
end

