-- ==== Sys2Proof/Laws/Step.lean ====
section
/-!
SUPPORT. One inversion lemma for a step, and one lemma for each edge that says what `step` is there (30_encoding.md R49,
70_reset_and_hazards.md R150, R153).
-/

namespace Sys2Proof.Machine

open Sys2Proof

theorem step_of_reset {s : State} (h : s.edge = .reset) : step s = .next (resetEdge s.sampled) := by simp [step, h]

theorem step_of_accept {s : State} {k : Cmd} (h : s.edge = .accept k) : step s = .next (accept k s.sampled) := by
  simp [step, h]

theorem step_of_wait {s : State} (h : s.edge = .wait) : step s = .next (wait s.sampled) := by simp [step, h]

theorem step_of_idle {s : State} (h : s.edge = .idle) : step s = .next s.sampled := by simp [step, h]

theorem step_of_complete {s : State} {k : Cmd} (h : s.edge = .complete k) :
    step s = exec (decodeCmd k) s.sampled := by
  simp [step, h]

/-- Everything a step can do. -/
theorem step_cases (s : State) : ∃ t, step s = .next t ∧
    ((s.ports.rst = true ∧ t = resetEdge s.sampled) ∨
     (s.ports.rst = false ∧ s.busy = false ∧ s.ports.cmdValid = true ∧ t = accept s.ports.cmd s.sampled) ∨
     (s.ports.rst = false ∧ s.busy = false ∧ s.ports.cmdValid = false ∧ t = s.sampled) ∨
     (s.ports.rst = false ∧ s.busy = true ∧ s.remaining = 0 ∧ exec (decodeCmd s.cmdq) s.sampled = .next t ∧
        Completes (decodeCmd s.cmdq) s.sampled t) ∨
     (s.ports.rst = false ∧ s.busy = true ∧ s.remaining ≠ 0 ∧ t = wait s.sampled)) := by
  rcases edge_cases s with ⟨hr, h⟩ | ⟨hr, hb, hv, h⟩ | ⟨hr, hb, hv, h⟩ | ⟨hr, hb, h0, h⟩ | ⟨hr, hb, h0, h⟩
  · exact ⟨_, step_of_reset h, .inl ⟨hr, rfl⟩⟩
  · exact ⟨_, step_of_accept h, .inr (.inl ⟨hr, hb, hv, rfl⟩)⟩
  · exact ⟨_, step_of_idle h, .inr (.inr (.inl ⟨hr, hb, hv, rfl⟩))⟩
  · obtain ⟨t, ht, hc⟩ := exec_completes (decodeCmd s.cmdq) s.sampled
    exact ⟨t, (step_of_complete h).trans ht, .inr (.inr (.inr (.inl ⟨hr, hb, h0, ht, hc⟩)))⟩
  · exact ⟨_, step_of_wait h, .inr (.inr (.inr (.inr ⟨hr, hb, h0, rfl⟩)))⟩

/-- Where a placed table word stands is where the next step takes its command from. -/
theorem holding_edge (k : Cmd) (s : State) : (s.holding k).edge = .complete k := by
  have : (s.holding k).ports.rst = false := by
    unfold State.ports
    rw [holding_inputs]
    by_cases h : s.ports.rst = true
    · simp [h, PortSample.idle]
    · rw [if_neg h]; simpa [State.ports] using h
  simp [State.edge, State.cmdReady, this]

/-- The state a step reaches, the inputs sampled, is that of the completed command. -/
theorem step_holding (k : Cmd) (s : State) : step (s.holding k) = exec (decodeCmd k) (s.holding k).sampled :=
  step_of_complete (holding_edge k s)

end Sys2Proof.Machine
end

