-- ==== Sys2Proof/Laws/Run.lean ====
section
/-!
SUPPORT. Runs of the edge machine: unfolding one step, joining two runs, passing the waiting edges of a command in
flight (70_reset_and_hazards.md R153), and which commands a run accepts (30_encoding.md R49).
-/

namespace Sys2Proof.Machine

open Sys2Proof

theorem run_zero (s : State) : Host.Core.run Sys2Proof.core 0 s = .next s := rfl

theorem run_of_step {s t : State} (h : step s = .next t) (n : Nat) :
    Host.Core.run Sys2Proof.core (n + 1) s = Host.Core.run Sys2Proof.core n t := by
  have : Sys2Proof.core.step s = .next t := h
  simp only [Host.Core.run, this]

theorem run_one (s : State) : Host.Core.run Sys2Proof.core 1 s = step s := by
  obtain ⟨t, h, _⟩ := step_cases s
  rw [run_of_step h, h]; rfl

theorem run_add (m n : Nat) {s t : State} (h : Host.Core.run Sys2Proof.core m s = .next t) :
    Host.Core.run Sys2Proof.core (m + n) s = Host.Core.run Sys2Proof.core n t := by
  induction m generalizing s with
  | zero => cases h; rw [Nat.zero_add]
  | succ m ih =>
    obtain ⟨u, hu, _⟩ := step_cases s
    rw [run_of_step hu] at h
    rw [Nat.succ_add, run_of_step hu, ih h]

/-- Past the end of the list the host is idle, so a list without a reset has no reset at its head. -/
theorem head_not_reset {l : List PortSample} (h : ∀ p ∈ l, p.rst = false) : (l.headD .idle).rst = false := by
  cases l with
  | nil => rfl
  | cons p q => exact h p (by simp)

/-- While edges are left and no reset comes, a command in flight only waits. -/
theorem run_wait (n : Nat) (s : State) (hb : s.busy = true) (hr : ∀ p ∈ s.inputs, p.rst = false)
    (h : n ≤ s.remaining) :
    Host.Core.run Sys2Proof.core n s =
      .next { s with remaining := s.remaining - n, inputs := s.inputs.drop n } := by
  induction n generalizing s with
  | zero => rfl
  | succ n ih =>
    have he : s.edge = .wait := by
      have : s.ports.rst = false := head_not_reset hr
      simp only [State.edge, State.cmdReady, this, hb]
      simp; omega
    have hr' : ∀ p ∈ (wait s.sampled).inputs, p.rst = false := fun p hp => hr p (List.mem_of_mem_tail hp)
    rw [run_of_step (step_of_wait he), ih (wait s.sampled) hb hr' (by simp; omega)]
    simp [wait, State.sampled, Nat.sub_sub, Nat.add_comm]

/-! ## The commands a run accepts -/

theorem accepted_of_edge {s : State} {k : Cmd} (h : s.edge = .accept k) : s.accepted = some k := by
  rcases edge_cases s with ⟨_, he⟩ | ⟨hr, hb, hv, he⟩ | ⟨_, _, _, he⟩ | ⟨_, _, _, he⟩ | ⟨_, _, _, he⟩ <;> rw [he] at h <;>
    cases h
  simp [State.accepted, State.cmdReady, hr, hb, hv]

theorem accepted_of_busy {s : State} (h : s.busy = true) : s.accepted = none := by
  simp [State.accepted, State.cmdReady, h]

theorem accepted_of_nothing_presented {s : State} (h : s.ports.cmdValid = false) : s.accepted = none := by
  simp [State.accepted, h]

theorem acceptedDuring_of_step {s t : State} (h : step s = .next t) (n : Nat) :
    acceptedDuring (n + 1) s = s.accepted.toList ++ acceptedDuring n t := by
  simp only [acceptedDuring, h]

end Sys2Proof.Machine
end

