-- ==== Sys2Proof/Machine/Assembly.lean ====
section
/-!
DEFINITION. The written form of a command (30_encoding.md R57): mnemonic, then the operands it reads in the order a, b,
c, as hexadecimal patterns of W bits. There are no pseudo-instructions (R58).
-/

namespace Sys2Proof

/-- The mnemonic of R52; ILLEGAL stands for op = 0xF (R57). -/
def Instr.mnemonic : Instr → String
  | .conv _      => "CONV"
  | .fromint _   => "FROMINT"
  | .toint _     => "TOINT"
  | .add _ _     => "ADD"
  | .sub _ _     => "SUB"
  | .neg _       => "NEG"
  | .mul _ _     => "MUL"
  | .divf _ _    => "DIVF"
  | .divr _ _    => "DIVR"
  | .abs _       => "ABS"
  | .clamp _ _ _ => "CLAMP"
  | .sqrtc _     => "SQRTC"
  | .sqrtr _     => "SQRTR"
  | .sqrt _      => "SQRT"
  | .cmp _ _     => "CMP"
  | .illegal     => "ILLEGAL"

/-- The operands a command reads, in the order a, b, c (R53). -/
def Instr.operands : Instr → List Word
  | .conv a      => [a]
  | .fromint a   => [a]
  | .toint a     => [a]
  | .add a b     => [a, b]
  | .sub a b     => [a, b]
  | .neg a       => [a]
  | .mul a b     => [a, b]
  | .divf a b    => [a, b]
  | .divr a b    => [a, b]
  | .abs a       => [a]
  | .clamp a b c => [a, b, c]
  | .sqrtc a     => [a]
  | .sqrtr a     => [a]
  | .sqrt a      => [a]
  | .cmp a b     => [a, b]
  | .illegal     => []

def hexDigit (n : Nat) : Char := if n < 10 then Char.ofNat (48 + n) else Char.ofNat (55 + n)

/-- `n` hexadecimal digits of `x`, most significant first. -/
def hexDigits : Nat → Nat → List Char
  | 0, _     => []
  | n + 1, x => hexDigit (x / 16 ^ n % 16) :: hexDigits n x

/-- A word of the format as W/4 hexadecimal digits (R57). -/
def Format.hex (f : Format) (x : Word) : List Char := '0' :: 'x' :: hexDigits (f.w / 4) x.toNat

/-- The operands with the separators of R57. -/
def operandText (f : Format) : List Word → List Char
  | []           => []
  | [x]          => ' ' :: f.hex x
  | x :: y :: xs => ' ' :: f.hex x ++ ',' :: operandText f (y :: xs)

/-- One line of R57. -/
def Instr.assembly (f : Format) (i : Instr) : List Char := i.mnemonic.toList ++ operandText f i.operands

end Sys2Proof
end

