-- ==== Sys2Proof/Tests/Slice0.lean ====
section
/-!
SUPPORT. Tests. Expected results are those of 95_test_vectors.md (the section is named) or of a worked example in the
rule. The witnesses at the end show that the hypotheses of each statement can be met together.
-/

namespace Sys2Proof.Tests

open Sys2Proof Sys2Proof.Machine

/-! ## Small instances and states -/

def s8f4 : Format := ⟨.w8, true, 4, by decide⟩
def u8f4 : Format := ⟨.w8, false, 4, by decide⟩
def u8f6 : Format := ⟨.w8, false, 6, by decide⟩
def s8f8 : Format := ⟨.w8, true, 8, by decide⟩
def s16f8 : Format := ⟨.w16, true, 8, by decide⟩
def u16f8 : Format := ⟨.w16, false, 8, by decide⟩
def s16f16 : Format := ⟨.w16, true, 16, by decide⟩
def s32f16 : Format := ⟨.w32, true, 16, by decide⟩

/-- The reset state of an instance with the normative iteration counts. -/
def at8 : State := .resetOf (.standard s8f4 s16f8)
def unit (f : Format) : State := .resetOf (.standard f s16f8)

/-- RES and STATUS of a completion. -/
def resOf : Host.Outcome State Fault Refusal → Option (Word × BitVec 2)
  | .next t    => some (t.res, t.status)
  | .fault _   => none
  | .refused _ => none

/-- STATUS and FSR of a completion. -/
def faultOf : Host.Outcome State Fault Refusal → Option (BitVec 2 × BitVec 3)
  | .next t    => some (t.status, t.fsr)
  | .fault _   => none
  | .refused _ => none

/-! ## WellFormed: each check refuses -/

theorem smoke_operand_a_too_wide : (Instr.conv 0x100).wf s8f4 = false := by decide
theorem smoke_operand_b_too_wide : (Instr.add 0xFF 0x100).wf s8f4 = false := by decide
theorem smoke_operand_c_too_wide : (Instr.clamp 0 0 0x100).wf s8f4 = false := by decide
theorem smoke_cmd_field_too_wide : Cmd.wf s8f4 ⟨5, 0x100, 0, 0⟩ = false := by decide
theorem smoke_width_64 : (RawCfg.elaborate ⟨64, true, 16, 32, true, 16, 4, 1⟩) = .error .illegalWidth := by rfl
theorem smoke_width2_12 : (RawCfg.elaborate ⟨32, true, 16, 12, true, 8, 4, 1⟩) = .error .illegalWidth := by rfl
theorem smoke_fraction_over_width : (RawCfg.elaborate ⟨8, true, 9, 8, true, 8, 4, 1⟩) = .error .excessiveFraction := by
  rfl
theorem smoke_fraction2_over_width : (RawCfg.elaborate ⟨8, true, 8, 8, true, 9, 4, 1⟩) = .error .excessiveFraction := by
  rfl
theorem smoke_fraction_negative : (RawCfg.elaborate ⟨8, true, -1, 8, true, 0, 4, 1⟩) = .error .negativeFraction := by
  rfl
theorem smoke_legal : (RawCfg.elaborate ⟨8, true, 8, 32, false, 32, 4, 1⟩) =
    .ok (.standard s8f8 ⟨.w32, false, 32, by decide⟩) := by rfl

/-! ## Decoding: command words written out in 95_test_vectors.md (sections 2.7, 3) or by R50 -/

theorem test_decode_conv : decode s8f4 0x0000018 = .ok (.conv 0x18) := by rfl
theorem test_decode_fromint : decode s32f16 0x1000000000000000000000003 = .ok (.fromint 3) := by rfl
theorem test_decode_toint : decode s32f16 0x20000000000000000000CC354 = .ok (.toint 0x000CC354) := by rfl
theorem test_decode_add : decode s8f4 0x3002818 = .ok (.add 0x18 0x28) := by rfl
theorem test_decode_sub : decode s32f16 0x4000000000002000080010000 = .ok (.sub 0x80010000 0x00020000) := by rfl
theorem test_decode_neg : decode s8f4 0x5000001 = .ok (.neg 0x01) := by rfl
theorem test_decode_mul : decode u16f8 0x60000030003AB = .ok (.mul 0x03AB 0x0300) := by rfl
theorem test_decode_divf : decode u16f8 0x7000003000A00 = .ok (.divf 0x0A00 0x0300) := by rfl
theorem test_decode_divr : decode u16f8 0x8000003000B00 = .ok (.divr 0x0B00 0x0300) := by rfl
theorem test_decode_abs : decode s8f4 0x9000080 = .ok (.abs 0x80) := by rfl
theorem test_decode_clamp : decode s32f16 0xA00432979000CC354000BEA7F =
    .ok (.clamp 0x000BEA7F 0x000CC354 0x00432979) := by rfl
theorem test_decode_sqrtc : decode s8f4 0xB000080 = .ok (.sqrtc 0x80) := by rfl
/-- From R50, R52: op = 1100, then c = 0, b = 0, a = 0x40. -/
theorem test_decode_sqrtr : decode s8f4 0b1100_00000000_00000000_01000000 = .ok (.sqrtr 0x40) := by rfl
theorem test_decode_sqrt : decode u16f8 0xD000000001000 = .ok (.sqrt 0x1000) := by rfl
theorem test_decode_cmp : decode s8f4 0xE004040 = .ok (.cmp 0x40 0x40) := by rfl
theorem test_decode_illegal : decode s8f4 0xF563412 = .ok .illegal := by rfl
theorem test_decode_ignored_fields : decode s8f4 0x5CDAB01 = decode s8f4 0x5000001 := by rfl
theorem test_decode_too_wide : decode s8f4 0x10000000 = .error .wordTooWide := by rfl
theorem test_encode_clamp : encode s8f4 (.clamp 0x30 0x10 0x50) = 0xA501030 := by decide
theorem test_table_word_op_field : decodeTableWord 8 0x7 = some (.divf 0 0) := by decide
theorem test_table_word_whole : decodeTableWord 28 0x7000030 = some (.divf 0x30 0) := by decide
theorem test_table_word_refused : decodeTableWord 8 0x10 = none := by decide
theorem test_fetch_word_runs_first : resOf (step (State.reset.withFetchWord 8 0xB)) = some (0, 0b00#2) := by decide
theorem test_assembly_add : (Instr.add 0x18 0x28).assembly s8f4 = "ADD 0x18, 0x28".toList := by decide
theorem test_assembly_sqrt : (Instr.sqrt 0x00190000).assembly s32f16 = "SQRT 0x00190000".toList := by decide

/-! ## The commands: vectors of 95_test_vectors.md section 2 -/

/-- CRES of a completion. -/
def cresOf : Host.Outcome State Fault Refusal → Option Word
  | .next t    => some t.cres
  | .fault _   => none
  | .refused _ => none

/-- CC of a completion. -/
def ccOf : Host.Outcome State Fault Refusal → Option (BitVec 3)
  | .next t    => some t.cc
  | .fault _   => none
  | .refused _ => none

theorem test_conv_sign_extends : cresOf (exec (.conv 0xF8) (unit s8f4)) = some 0xFF80 := by decide
theorem test_conv_narrowing_floors : cresOf (exec (.conv 0xFE78) (.resetOf (.standard s16f8 s8f4))) = some 0xE7 := by
  decide
theorem test_fromint_wraps : resOf (exec (.fromint 0xF7) at8) = some (0x70, 0b00#2) := by decide
theorem test_fromint_full_width : resOf (exec (.fromint 0xFF) (unit s8f8)) = some (0x00, 0b00#2) := by decide
theorem test_toint_floors : resOf (exec (.toint 0xFFFC8000) (unit s32f16)) = some (0xFFFFFFFC, 0b00#2) := by decide
theorem test_toint_unsigned : resOf (exec (.toint 0xF8) (unit u8f4)) = some (0x0F, 0b00#2) := by decide
theorem test_add_wraps : resOf (exec (.add 0x7F 0x01) at8) = some (0x80, 0b00#2) := by decide
theorem test_sub_order : resOf (exec (.sub 0x18 0x28) at8) = some (0xF0, 0b00#2) := by decide
theorem test_neg_smallest : resOf (exec (.neg 0x80) at8) = some (0x80, 0b00#2) := by decide
theorem test_abs_negative : resOf (exec (.abs 0xFF) at8) = some (0x01, 0b00#2) := by decide
theorem test_abs_unsigned : resOf (exec (.abs 0xFF) (unit u8f4)) = some (0xFF, 0b00#2) := by decide
theorem test_mul_floors_negative : resOf (exec (.mul 0xFF 0x01) at8) = some (0xFF, 0b00#2) := by decide
theorem test_mul_scenario_3 :
    resOf (exec (.mul 0x022C49BA 0xFDD3B646) (unit ⟨.w32, true, 24, by decide⟩)) = some (0xFB472FAA, 0b00#2) := by
  decide
theorem test_divf_truncates : resOf (exec (.divf 0xF0 0x30) at8) = some (0xFB, 0b00#2) := by decide
theorem test_divf_zero : faultOf (exec (.divf 0x00 0x00) at8) = some (0b01#2, 0b001#3) := by decide
theorem test_divr_tie_away : resOf (exec (.divr 0x01 0xE0) at8) = some (0xFF, 0b00#2) := by decide
theorem test_divr_exact_intermediate : resOf (exec (.divr 0x8000 0xFFFD) (unit s16f16)) = some (0xAAAB, 0b00#2) := by
  decide
theorem test_sqrtc : resOf (exec (.sqrtc 0x000CD0F2) (unit s32f16)) = some (0x00020000, 0b00#2) := by decide
theorem test_sqrtc_negative : faultOf (exec (.sqrtc 0x80) at8) = some (0b10#2, 0b010#3) := by decide
theorem test_sqrtr : resOf (exec (.sqrtr 0x000CD0F2) (unit s32f16)) = some (0x0004343C, 0b00#2) := by decide
theorem test_sqrtr_left_shift : resOf (exec (.sqrtr 0x00000001) (unit s32f16)) = some (0x00000100, 0b00#2) := by decide
theorem test_sqrt_scenario_5 : resOf (exec (.sqrt 0x000CD0F2) (unit s32f16)) = some (0x00039479, 0b00#2) := by
  decide +kernel
theorem test_sqrt_internal_zero_divisor : faultOf (exec (.sqrt 0xC0) (unit u8f6)) = some (0b01#2, 0b001#3) := by
  decide +kernel
theorem test_cmp_signed : ccOf (exec (.cmp 0x80 0x7F) at8) = some 0b001#3 := by decide
theorem test_cmp_unsigned : ccOf (exec (.cmp 0x80 0x7F) (unit u8f4)) = some 0b100#3 := by decide
theorem test_clamp_below : resOf (exec (.clamp 0xF0 0x10 0x50) at8) = some (0x10, 0b00#2) := by decide
theorem test_clamp_low_above_high : resOf (exec (.clamp 0x70 0x50 0x10) at8) = some (0x10, 0b00#2) := by decide
theorem test_illegal_keeps_res :
    resOf (exec .illegal { at8 with res := 0x40 }) = some (0x40, 0b11#2) := by decide
theorem test_precision_helpers : sameUpToOneBit s8f4 0xFF 0x00 = true ∧ sameUpToNBits s8f4 0x00 0x05 2 = false ∧
    sameTopMostBit s8f4 0x18 0x1F = true := by decide

/-! ## The edges -/

def sample (k : Cmd) : PortSample := ⟨false, true, k⟩
def resetSample : PortSample := ⟨true, false, ⟨0, 0, 0, 0⟩⟩

/-- A unit with the command `k` in flight and `n` edges left before its completion edge. -/
def flying (k : Cmd) (n : Nat) : State := { at8 with busy := true, cmdq := k, remaining := n }
def add8 : Cmd := ⟨0x3, 0, 0x28, 0x18⟩

/-- BUSY and RVALID after a step. -/
def protocolOf : Host.Outcome State Fault Refusal → Option (Bool × Bool)
  | .next t    => some (t.busy, t.rvalid)
  | .fault _   => none
  | .refused _ => none

theorem test_accept_sets_busy : protocolOf (step { at8 with rvalid := true, inputs := [sample add8] }) =
    some (true, false) := by decide
theorem test_completion_clears_busy : protocolOf (step (flying add8 0)) = some (false, true) := by decide
theorem test_reset_wins : protocolOf (step { flying add8 0 with inputs := [resetSample] }) = some (false, false) := by
  decide

/-! ## Witnesses: the hypotheses of each statement met together -/

theorem witness_DecodeOfEncodedCommandIsTheCommand : (Instr.clamp 0xFF 0x80 0x00).wf s8f4 = true := by decide
theorem witness_DecoderIsTotalOnCommandWords :
    2 ^ 28 - 1 < 2 ^ (4 + 3 * s8f4.w) ∧ 2 ^ (4 + 3 * s8f4.w) ≤ 2 ^ 28 := by decide
theorem witness_UnreadOperandFieldsAreIgnored :
    let k : Cmd := ⟨0x5, 0xCD, 0xAB, 0x01⟩
    let k' : Cmd := ⟨0x5, 0x00, 0x00, 0x01⟩
    k.op = k'.op ∧ (k.op ≠ 0xF#4 → k.a = k'.a) ∧
    (k.op = 0x3#4 ∨ k.op = 0x4#4 ∨ k.op = 0x6#4 ∨ k.op = 0x7#4 ∨ k.op = 0x8#4 ∨ k.op = 0xA#4 ∨ k.op = 0xE#4 →
      k.b = k'.b) ∧
    (k.op = 0xA#4 → k.c = k'.c) ∧ k ≠ k' ∧
    (flying k 0).ports.rst = false ∧ (flying k 0).busy = true ∧ (flying k 0).remaining = 0 := by decide
theorem witness_ResponseRecordHoldsItsFields : { at8 with res := 0xFF, cres := 0xFFFF }.RegistersFit := by decide
theorem witness_ElaborationAcceptsExactlyLegalConfigurations :
    ∃ c, RawCfg.elaborate ⟨8, true, 8, 32, false, 32, 4, 1⟩ = .ok c := ⟨_, smoke_legal⟩
theorem witness_CompletionStepRunsTheDecodedCommand :
    (flying add8 0).ports.rst = false ∧ (flying add8 0).busy = true ∧ (flying add8 0).remaining = 0 ∧
    decode s8f4 ((flying add8 0).cmdq.toWord 8) = .ok (.add 0x18 0x28) ∧ (flying add8 0).cmdq.wf s8f4 = true :=
  ⟨by decide, by decide, by decide, by decide +kernel, by decide⟩
theorem witness_AcceptEdgeLatchesTheCommand :
    let s : State := { at8 with inputs := [sample add8] }
    s.ports.rst = false ∧ s.busy = false ∧ s.ports.cmdValid = true ∧ s.ports.cmd.wf s.cfg.src = true := by decide
theorem witness_PortsAreIgnoredWhileBusy :
    (flying add8 1).busy = true ∧ (sample add8).rst = false ∧ PortSample.idle.rst = false := by decide
theorem witness_WaitingAndIdleEdgesChangeNoRegister :
    (at8.ports.rst = false ∧ at8.busy = false ∧ at8.ports.cmdValid = false) ∧
    (flying add8 1).ports.rst = false ∧ (flying add8 1).busy = true ∧ (flying add8 1).remaining ≠ 0 := by decide
theorem witness_ResetEdgeClearsTheControlState :
    State.ports { flying add8 0 with inputs := [resetSample] } |>.rst := by decide
theorem witness_EveryStepKeepsTheInvariant : at8.Inv ∧ ∃ t, step at8 = .next t := ⟨by decide, _, rfl⟩
theorem witness_NoStepChangesTheConfiguration : ∃ t, step (flying add8 0) = .next t := ⟨_, rfl⟩
theorem witness_OnlyResetClearsAFaultBit :
    ∃ t, step { flying add8 0 with fsr := 0b100#3 } = .next t ∧
      State.ports { flying add8 0 with fsr := 0b100#3 } = .idle ∧ (0b100#3).getLsbD 2 = true := ⟨_, rfl, rfl, rfl⟩
theorem witness_ResponseIsStableBetweenCompletions :
    (∃ t, step at8 = .next t ∧ at8.ports.rst = false ∧ at8.busy = false) ∧
    ∃ t, step (flying add8 1) = .next t ∧ (flying add8 1).ports.rst = false ∧ (flying add8 1).remaining ≠ 0 :=
  ⟨⟨_, rfl, rfl, rfl⟩, _, rfl, rfl, by decide⟩
theorem witness_AcceptedCommandCompletesAfterItsLatency :
    at8.busy = false ∧ ∀ p ∈ [sample add8, .idle], p.rst = false := by decide
theorem witness_CommandSequenceTakesEffectInOrder :
    let s : State := { at8 with inputs := [sample add8] }
    s.busy = false ∧ (∀ p ∈ s.inputs, p.rst = false) ∧
    (∃ t, Host.Core.run Sys2Proof.core 0 s = .next t ∧ t.busy = false) ∧
    ∃ t, Host.Core.run Sys2Proof.core 1 s = .next t ∧ t.busy = true ∧ acceptedDuring 1 s = [add8] :=
  ⟨rfl, by decide, ⟨_, rfl, rfl⟩, _, rfl, rfl, rfl⟩
theorem witness_UnspecifiedValuesNeverLeak : at8.Agree { at8 with res := 0x55, cc := 0b111#3 } where
  cfg := rfl
  fsr := rfl
  busy := rfl
  rvalid := rfl
  remaining := rfl
  inputs := rfl
  draws := rfl
  specified := rfl
  cmdq := fun h => nomatch h
  res := fun h => nomatch h
  cres := fun _ => rfl
  cc := fun h => nomatch h
  status := fun _ => rfl
theorem witness_OnlyTheDestinationIsWritten :
    (∃ t, exec (.conv 0x18) at8 = .next t) ∧ (∃ t, exec (.cmp 1 2) at8 = .next t) ∧
    (∃ t, exec .illegal at8 = .next t) ∧ ∃ t, exec (.add 1 2) at8 = .next t :=
  ⟨⟨_, rfl⟩, ⟨_, rfl⟩, ⟨_, rfl⟩, _, rfl⟩
theorem witness_CompletionWritesStatusAndItsFaultBit :
    (∃ t, exec (.add 1 2) at8 = .next t ∧ t.status = 0b00#2) ∧
    (∃ t, exec (.divf 1 0) at8 = .next t ∧ t.status = 0b01#2) ∧
    (∃ t, exec (.sqrtr 0x80) at8 = .next t ∧ t.status = 0b10#2) ∧
    ∃ t, exec .illegal at8 = .next t ∧ t.status = 0b11#2 :=
  ⟨⟨_, rfl, by decide⟩, ⟨_, rfl, by decide⟩, ⟨_, rfl, by decide⟩, _, rfl, by decide⟩
theorem witness_OverflowIsNeverAFault :
    Instr.mul 0x7F 0x7F ∈ [.conv 0x7F, .fromint 0x7F, .toint 0x7F, .add 0x7F 0x7F, .sub 0x7F 0x7F, .neg 0x7F,
      .mul 0x7F 0x7F, .abs 0x7F, .clamp 0x7F 0x7F 0, .cmp 0x7F 0x7F] := by decide
theorem witness_CommandsReadNoRegister :
    at8.cfg = { at8 with res := 0x55, fsr := 0b111#3 }.cfg ∧ ∃ t, exec (.add 1 2) at8 = .next t ∧ t.status = 0b00#2 :=
  ⟨rfl, _, rfl, by decide⟩
theorem witness_HostReadsOnlySpecifiedResponses :
    let s : State := { at8 with inputs := [sample add8] }
    s.ports.rst = false ∧ s.busy = false ∧ s.ports.cmdValid = true ∧ ∃ t, step s = .next t :=
  ⟨rfl, rfl, rfl, _, rfl⟩
theorem witness_NegativeRadicandTakesSqrtNegative : s8f4.fits 0x80 = true ∧ s8f4.value 0x80 < 0 := by decide

/-- Instances without fast iterations, for the second alternative of the internal fault. -/
def noFast (f : Format) : State := .resetOf ⟨f, s16f8, 0, 1⟩

theorem witness_ZeroDivisorInsideSqrt_fast :
    u8f6.fits 0xC0 = true ∧ exec (.sqrtr 0xC0) (unit u8f6) = .next ((unit u8f6).withResult 0) ∧
    0 < (unit u8f6).cfg.nFast := ⟨by decide, rfl, by decide⟩
theorem witness_ZeroDivisorInsideSqrt_precise :
    exec (.sqrtr 0xC0) (noFast u8f6) = .next ((noFast u8f6).withResult 0) ∧ (noFast u8f6).cfg.nFast = 0 ∧
    0 < (noFast u8f6).cfg.nPrecise := ⟨rfl, rfl, by decide⟩
theorem witness_ZeroDivisorInsideSqrt_two :
    let f : Format := ⟨.w8, true, 7, by decide⟩
    exec (.sqrtr 0x40) (noFast f) = .next ((noFast f).withResult 0xE0) ∧ f.pattern (2 * pow2 f.frac) = 0 :=
  ⟨rfl, by decide⟩

/-- Two operands of the widest value meet the hypotheses of the result statements that ask for width alone: CONV,
FROMINT, TOINT, ADD, SUB, NEG, ABS, the adder laws, MUL, CMP, the comparison order; the largest is no zero divisor. -/
theorem witness_results_of_fitting_operands :
    s8f4.fits 0xFF = true ∧ s8f4.fits 0x7F = true ∧ s8f4.fits 0 = true ∧ (0xFF : Word) ≠ 0 := by decide
theorem witness_AbsIsTheWrappedMagnitude :
    0 ≤ s8f4.value 0x7F ∧ s8f4.value 0x80 = -pow2 (s8f4.w - 1) ∧ s8f4.fits 0x80 = true := by decide
theorem witness_ConvBetweenEqualFormatsIsIdentity :
    s8f4.fits 0xA5 = true ∧ (State.resetOf (.standard s8f4 s8f4)).cfg.dst = (State.resetOf (.standard s8f4 s8f4)).cfg.src := by
  decide
theorem witness_RepresentableIntegersRoundTrip :
    0 ≤ s8f4.wholeBits ∧ s8f4.minInt ≤ -8 ∧ (7 : Int) ≤ s8f4.maxInt ∧ s8f4.minInt ≤ 7 := by decide
theorem witness_MulErrorIsBelowOneRawUnit :
    s8f4.fits 0xFF = true ∧ s8f4.holds (Int.fdiv (s8f4.value 0xFF * s8f4.value 0x01) (pow2 s8f4.frac)) ∧
    exec (.mul 0xFF 0x01) at8 = .next (at8.withResult 0xFF) := ⟨by decide, by decide, rfl⟩
/-- The smallest value with the divisors -1, outside R98 (ii), and -3, inside it. -/
theorem witness_IntermediateTypeHoldsProductAndDividend :
    s16f16.fits 0x8000 = true ∧ s16f16.fits 0xFFFF = true ∧ (0xFFFF : Word) ≠ 0 ∧
    s16f16.value 0x8000 = -pow2 (s16f16.w - 1) ∧ ¬2 ≤ |s16f16.value 0xFFFF| ∧ 2 ≤ |s16f16.value 0xFFFD| := by decide
/-- R98: the value an intermediate of 32 bits that wraps would give for DIVR 0x8000, 0xFFFD. -/
theorem test_wrapping_intermediate :
    let n := s16f16.widen 0x8000 <<< 16
    s16f16.narrow (s16f16.wideDiv (n + s16f16.wideDiv (s16f16.widen 0xFFFD) 2) (s16f16.widen 0xFFFD)) = 0x5556 := by
  decide
theorem witness_division_operands :
    s8f4.fits 0x80 = true ∧ s8f4.fits 0xFF = true ∧ s8f4.value 0xFF ≠ 0 ∧ s8f4.fits 0 = true ∧ s8f4.value 0 = 0 := by
  decide
theorem witness_MultiplyThenDivideReturnsWithinOneUnit :
    s8f4.fits 0x35 = true ∧ s8f4.fits 0xE5 = true ∧ pow2 s8f4.frac ≤ |s8f4.value 0xE5| ∧
    exec (.mul 0x35 0xE5) at8 = .next (at8.withResult 0xA6) ∧
    exec (.divf 0xA6 0xE5) at8 = .next (at8.withResult 0x35) ∧
    s8f4.holds (Int.fdiv (s8f4.value 0x35 * s8f4.value 0xE5) (pow2 s8f4.frac)) ∧
    s8f4.holds (Int.tdiv (s8f4.value 0xA6 * pow2 s8f4.frac) (s8f4.value 0xE5)) :=
  ⟨by decide, by decide, by decide, rfl, rfl, by decide, by decide⟩
theorem witness_SqrtcIsTheCoarsePowerOfTwo :
    s8f4.fits 0x7F = true ∧ 0 ≤ s8f4.value 0x7F ∧ 2 ^ 6 ≤ (0x7F : Word).toNat ∧ (0x7F : Word).toNat < 2 ^ 7 := by decide
/-- Signed F = W on both sides of the wrap: the highest set bit W - 3 and W - 2. -/
theorem witness_SqrtcIsWithinAFactorOfTwo :
    s8f8.fits 0x3F = true ∧ 0 < s8f8.value 0x3F ∧ ¬2 ^ (s8f8.w - 2) ≤ (0x3F : Word).toNat ∧
    s8f8.fits 0x40 = true ∧ 0 < s8f8.value 0x40 ∧ 2 ^ (s8f8.w - 2) ≤ (0x40 : Word).toNat := by decide
theorem witness_SqrtrAveragesTheCoarseEstimate :
    5 = (6 + s8f4.frac) / 2 ∧ (0x20 : Word) = s8f4.pattern (pow2 5) ∧
    (0x3F : Word) = s8f4.pattern (if s8f4.frac ≤ 5 then Int.fdiv (s8f4.value 0x7F) (pow2 (5 - s8f4.frac))
      else s8f4.value 0x7F * pow2 (s8f4.frac - 5)) ∧
    exec (.add 0x20 0x3F) at8 = .next (at8.withResult 0x5F) := ⟨by decide, by decide, by decide, rfl⟩
theorem witness_SqrtrIsNoFartherThanSqrtc :
    3 ≤ s8f4.wholeBits ∧ exec (.sqrtc 0x7F) at8 = .next (at8.withResult 0x20) ∧
    exec (.sqrtr 0x7F) at8 = .next (at8.withResult 0x2F) ∧
    s8f4.radicand 0x7F < s8f4.value 0x2F ^ 2 := ⟨by decide, rfl, rfl, by decide⟩
theorem witness_square_root_formats :
    3 ≤ s8f4.wholeBits ∧ 0 < s8f4.value 0x7F ∧ s8f4.fits 0x7F = true ∧ at8.cfg.nFast = 4 ∧ at8.cfg.nPrecise = 1 := by
  decide
theorem witness_SqrtRunsFastThenPreciseIterations :
    s8f4.fits 0x40 = true ∧ (0x40 : Word) ≠ 0 ∧
    exec (.sqrtr 0x40) at8 = .next (at8.withResult 0x20) ∧ exec (.divf 0x40 0x20) at8 = .next (at8.withResult 0x20) ∧
    exec (.add 0x20 0x20) at8 = .next (at8.withResult 0x40) ∧ 0x20 = s8f4.pattern (Int.fdiv (s8f4.value 0x40) 2) ∧
    exec (.divr 0x40 0x20) at8 = .next (at8.withResult 0x20) ∧
    exec (.divr 0x40 (s8f4.pattern (2 * pow2 s8f4.frac))) at8 = .next (at8.withResult 0x20) :=
  ⟨by decide, by decide, rfl, rfl, rfl, by decide, rfl, rfl⟩
theorem witness_ComparisonIsATotalOrder :
    s8f4.fits 0x80 = true ∧ s8f4.value 0x80 < s8f4.value 0xFF ∧ s8f4.value 0xFF < s8f4.value 0x7F ∧
    s8f4.fits 0xFF = true ∧ s8f4.fits 0x7F = true := by decide
theorem witness_ClampSelectsAnOperand :
    s8f4.value 0xF0 < s8f4.value 0x10 ∧
    (s8f4.value 0x10 ≤ s8f4.value 0x60 ∧ s8f4.value 0x50 < s8f4.value 0x60) ∧
    s8f4.value 0x10 ≤ s8f4.value 0x10 ∧ s8f4.value 0x10 ≤ s8f4.value 0x50 := by decide

end Sys2Proof.Tests
end

/-! # Scope: elaboration (R11, R140) and what a command is a function of (R16) -/

namespace Sys2Proof

/-! ## Elaboration: what it accepts, and that it keeps every value of the tuple -/

/-- The legal widths and no other number (R5). -/
theorem Width.ofNat?_eq_some_iff (n : Nat) (width : Width) : Width.ofNat? n = some width ↔ width.bits = n := by
  constructor
  · intro h
    unfold Width.ofNat? at h
    split at h <;> cases h <;> rfl
  · rintro rfl
    cases width <;> rfl

theorem Width.exists_bits_eq {w : Nat} (h : w = 8 ∨ w = 16 ∨ w = 32) : ∃ width : Width, width.bits = w := by
  rcases h with rfl | rfl | rfl
  · exact ⟨.w8, rfl⟩
  · exact ⟨.w16, rfl⟩
  · exact ⟨.w32, rfl⟩

/-- A format is elaborated from exactly the values it holds: nothing is reduced (R140). -/
theorem elaborateFormat_eq_ok_iff (w : Nat) (sgn : Bool) (f : Int) (fmt : Format) :
    elaborateFormat w sgn f = .ok fmt ↔ fmt.w = w ∧ fmt.signed = sgn ∧ (fmt.frac : Int) = f := by
  constructor
  · intro h
    unfold elaborateFormat at h
    split at h
    · cases h
    · next width hw =>
      split at h
      · cases h
      · split at h
        · cases h
          exact ⟨(Width.ofNat?_eq_some_iff w width).1 hw, rfl, Int.toNat_of_nonneg (by omega)⟩
        · cases h
  · rintro ⟨rfl, rfl, rfl⟩
    have hw : Width.ofNat? fmt.w = some fmt.width := (Width.ofNat?_eq_some_iff _ _).2 rfl
    have hneg : ¬(fmt.frac : Int) < 0 := by omega
    simp only [elaborateFormat, hw, if_neg hneg, Int.toNat_natCast, dif_pos fmt.frac_le]

/-- The tuples of one format that some format comes from (R5, R7). -/
theorem elaborateFormat_accepts_iff (w : Nat) (sgn : Bool) (f : Int) :
    (∃ fmt, elaborateFormat w sgn f = .ok fmt) ↔ (w = 8 ∨ w = 16 ∨ w = 32) ∧ 0 ≤ f ∧ f ≤ w := by
  simp only [elaborateFormat_eq_ok_iff]
  constructor
  · rintro ⟨fmt, rfl, -, rfl⟩
    exact ⟨fmt.width.bits_cases, Int.natCast_nonneg _, Int.ofNat_le.2 fmt.frac_le⟩
  · rintro ⟨hw, h0, hle⟩
    obtain ⟨width, rfl⟩ := Width.exists_bits_eq hw
    exact ⟨⟨width, sgn, f.toNat, by omega⟩, rfl, rfl, Int.toNat_of_nonneg h0⟩

/-- A configuration is elaborated from its two formats, the iteration counts taken as they are. -/
theorem RawCfg.elaborate_eq_ok_iff (r : RawCfg) (c : Cfg) :
    r.elaborate = .ok c ↔ elaborateFormat r.w r.sgn r.f = .ok c.src ∧ elaborateFormat r.w2 r.sgn2 r.f2 = .ok c.dst ∧
      c.nFast = r.nFast ∧ c.nPrecise = r.nPrecise := by
  constructor
  · intro h
    unfold RawCfg.elaborate at h
    split at h
    · next src dst hsrc hdst =>
      cases h
      exact ⟨hsrc, hdst, rfl, rfl⟩
    · cases h
    · cases h
  · rintro ⟨hsrc, hdst, hfast, hprecise⟩
    simp only [RawCfg.elaborate, hsrc, hdst, ← hfast, ← hprecise]

/-- Elaboration succeeds exactly when both formats do. -/
theorem RawCfg.elaborate_accepts_iff (r : RawCfg) :
    (∃ c, r.elaborate = .ok c) ↔ (∃ src, elaborateFormat r.w r.sgn r.f = .ok src) ∧
      ∃ dst, elaborateFormat r.w2 r.sgn2 r.f2 = .ok dst := by
  simp only [RawCfg.elaborate_eq_ok_iff]
  constructor
  · rintro ⟨c, hsrc, hdst, -⟩
    exact ⟨⟨_, hsrc⟩, _, hdst⟩
  · rintro ⟨⟨src, hsrc⟩, dst, hdst⟩
    exact ⟨⟨src, dst, r.nFast, r.nPrecise⟩, hsrc, hdst, rfl, rfl⟩

/-- Settles O6: each format elaborates exactly from a legal width and a fraction count in range, and holds both. -/
theorem elaborationAcceptsExactlyLegalConfigurations :
    Obligations.ElaborationAcceptsExactlyLegalConfigurations := by
  intro r
  constructor
  · rw [r.elaborate_accepts_iff, elaborateFormat_accepts_iff, elaborateFormat_accepts_iff]
    tauto
  · intro c h
    obtain ⟨hsrc, hdst, hfast, hprecise⟩ := (r.elaborate_eq_ok_iff c).1 h
    obtain ⟨hw, hsgn, hf⟩ := (elaborateFormat_eq_ok_iff _ _ _ _).1 hsrc
    obtain ⟨hw2, hsgn2, hf2⟩ := (elaborateFormat_eq_ok_iff _ _ _ _).1 hdst
    exact ⟨hw, hsgn, hf, hw2, hsgn2, hf2, hfast, hprecise⟩

end Sys2Proof

namespace Sys2Proof.Machine

open Sys2Proof

/-! ## A command is a function of its operands and the configuration -/

/-- No fault completes with STATUS = OK (R25). -/
theorem CmdFault.status_ne_ok (k : CmdFault) : k.status ≠ statusOk := by cases k <;> decide

/-- The STATUS of a concluded command is that of its outcome, whatever the state was. -/
theorem conclude_status_eq (r : Except CmdFault Word) (s s' : State) :
    (conclude r s).status = (conclude r s').status := by cases r <;> rfl

/-- So is RES when STATUS is OK; a fault may leave an unspecified value there (R136). -/
theorem conclude_res_eq_of_ok {r : Except CmdFault Word} {s : State} (h : (conclude r s).status = statusOk) (s' : State) :
    (conclude r s).res = (conclude r s').res := by
  cases r with
  | ok v => rfl
  | error k => exact absurd h k.status_ne_ok

/-- Every command but CONV and CMP concludes with an outcome that is a function of the configuration: the state's
registers do not enter it (R16). -/
theorem exec_concludes (i : Instr) (hconv : ∀ a, i ≠ .conv a) (hcmp : ∀ a b, i ≠ .cmp a b) :
    ∃ outcome : Cfg → Except CmdFault Word, ∀ s, exec i s = .next (conclude (outcome s.cfg) s) := by
  cases i with
  | conv a => exact absurd rfl (hconv a)
  | fromint a => exact ⟨fun c => .ok (fromIntValue c.src a), fun _ => rfl⟩
  | toint a => exact ⟨fun c => .ok (toIntValue c.src a), fun _ => rfl⟩
  | add a b => exact ⟨fun c => .ok (addValue c.src a b), fun _ => rfl⟩
  | sub a b => exact ⟨fun c => .ok (subValue c.src a b), fun _ => rfl⟩
  | neg a => exact ⟨fun c => .ok (negValue c.src a), fun _ => rfl⟩
  | mul a b => exact ⟨fun c => .ok (mulValue c.src a b), fun _ => rfl⟩
  | divf a b => exact ⟨fun c => divfValue c.src a b, fun _ => rfl⟩
  | divr a b => exact ⟨fun c => divrValue c.src a b, fun _ => rfl⟩
  | abs a => exact ⟨fun c => .ok (absValue c.src a), fun _ => rfl⟩
  | clamp a b c => exact ⟨fun cfg => .ok (clampValue cfg.src a b c), fun _ => rfl⟩
  | sqrtc a => exact ⟨fun c => sqrtcValue c.src a, fun _ => rfl⟩
  | sqrtr a => exact ⟨fun c => sqrtrValue c.src a, fun _ => rfl⟩
  | sqrt a => exact ⟨fun c => sqrtValue c a, fun _ => rfl⟩
  | cmp a b => exact absurd rfl (hcmp a b)
  | illegal => exact ⟨fun _ => .error .illegalOp, fun _ => rfl⟩

/-- Settles O25: CONV writes CRES and CMP writes CC from the configuration and the operands; every other command
concludes with an outcome that depends on nothing else. -/
theorem commandsReadNoRegister : Obligations.CommandsReadNoRegister := by
  intro i s s' hcfg
  by_cases hconv : ∃ a, i = .conv a
  · obtain ⟨a, rfl⟩ := hconv
    exact ⟨_, _, exec_conv a s, exec_conv a s', rfl, fun _ h => absurd rfl (h a), fun _ => by simp [hcfg], by simp⟩
  by_cases hcmp : ∃ a b, i = .cmp a b
  · obtain ⟨a, b, rfl⟩ := hcmp
    exact ⟨_, _, exec_cmp a b s, exec_cmp a b s', rfl, fun _ _ h => absurd rfl (h a b), by simp, fun _ => by simp [hcfg]⟩
  obtain ⟨outcome, hexec⟩ := exec_concludes i (not_exists.1 hconv) (by simpa using hcmp)
  refine ⟨_, _, hexec s, hexec s', ?_, fun hok _ _ => ?_, fun h => absurd h hconv, fun h => absurd h hcmp⟩
  · rw [← hcfg]
    exact conclude_status_eq _ _ _
  · rw [← hcfg]
    exact conclude_res_eq_of_ok hok _

end Sys2Proof.Machine

/-! # Encoding: the response record (R51) and the fixed configuration (R56) -/

namespace Sys2Proof.Machine

open Sys2Proof

/-! ## A record of bit fields: the lowest field `x` of `n` bits, the rest `y` above it -/

theorem field_mod {n x : Nat} (hx : x < 2 ^ n) (y : Nat) : (x + y * 2 ^ n) % 2 ^ n = x := by
  rw [Nat.add_mul_mod_self_right, Nat.mod_eq_of_lt hx]

theorem field_div {n x : Nat} (hx : x < 2 ^ n) (y : Nat) : (x + y * 2 ^ n) / 2 ^ n = y := by
  rw [Nat.add_mul_div_right _ _ (Nat.two_pow_pos n), Nat.div_eq_of_lt hx, zero_add]

theorem field_lt {n m x y : Nat} (hx : x < 2 ^ n) (hy : y < 2 ^ m) : x + y * 2 ^ n < 2 ^ (m + n) :=
  calc x + y * 2 ^ n < 2 ^ n + y * 2 ^ n := Nat.add_lt_add_right hx _
    _ = (y + 1) * 2 ^ n := by ring
    _ ≤ 2 ^ m * 2 ^ n := Nat.mul_le_mul_right _ hy
    _ = 2 ^ (m + n) := (pow_add 2 m n).symm

/-- What stands above two fields stands above the second in what stands above the first. -/
theorem div_two_pow_add (r m n : Nat) : r / 2 ^ (m + n) = r / 2 ^ m / 2 ^ n := by
  rw [pow_add, Nat.div_div_eq_div_mul]

/-! ## The response record -/

/-- The record as fields on top of each other, RES lowest: each power of two is the width of the field below. -/
theorem responseRecord_eq (s : State) :
    responseRecord s = s.res.toNat + (s.cres.toNat + (s.cc.toNat + (s.status.toNat + s.fsr.toNat * 2 ^ 2) * 2 ^ 3)
      * 2 ^ s.cfg.dst.w) * 2 ^ s.cfg.src.w := by
  unfold responseRecord
  ring

/-- Settles O5: taking the fields off from the bottom, each division leaves the fields above and each remainder is the
lowest of them. -/
theorem responseRecordHoldsItsFields : Obligations.ResponseRecordHoldsItsFields := by
  rintro s ⟨hres, hcres, -⟩
  rw [Format.fits_iff] at hres hcres
  have hcc := s.cc.isLt
  have hstatus := s.status.isLt
  have hfsr := s.fsr.isLt
  have above_res : responseRecord s / 2 ^ s.cfg.src.w =
      s.cres.toNat + (s.cc.toNat + (s.status.toNat + s.fsr.toNat * 2 ^ 2) * 2 ^ 3) * 2 ^ s.cfg.dst.w := by
    rw [responseRecord_eq, field_div hres]
  have above_cres : responseRecord s / 2 ^ (s.cfg.src.w + s.cfg.dst.w) =
      s.cc.toNat + (s.status.toNat + s.fsr.toNat * 2 ^ 2) * 2 ^ 3 := by
    rw [div_two_pow_add, above_res, field_div hcres]
  have above_cc : responseRecord s / 2 ^ (s.cfg.src.w + s.cfg.dst.w + 3) =
      s.status.toNat + s.fsr.toNat * 2 ^ 2 := by
    rw [div_two_pow_add, above_cres, field_div hcc]
  have above_status : responseRecord s / 2 ^ (s.cfg.src.w + s.cfg.dst.w + 3 + 2) = s.fsr.toNat := by
    rw [div_two_pow_add, above_cc, field_div hstatus]
  refine ⟨?_, ?_, ?_, ?_, ?_, ?_⟩
  · rw [responseRecord_eq]
    exact field_lt hres (field_lt hcres (field_lt hcc (field_lt hstatus hfsr)))
  · rw [responseRecord_eq, field_mod hres]
  · rw [above_res, field_mod hcres]
  · rw [above_cres, field_mod hcc]
  · rw [above_cc, field_mod hstatus]
  · rw [above_status, Nat.mod_eq_of_lt hfsr]

/-! ## The configuration -/

/-- A completion, whichever way, writes response registers and protocol flags only. -/
theorem Completes.cfg_eq {i : Instr} {s t : State} (h : Completes i s t) : t.cfg = s.cfg := by
  cases h with
  | res v _ h => rw [h, finishRes_cfg]
  | cres v _ h => rw [h, finishCres_cfg]
  | cc a b h => rw [h, finishCc_cfg]
  | fault k h => rw [h, raise_cfg]

/-- Settles O16, by the five edges of a step. -/
theorem noStepChangesTheConfiguration : Obligations.NoStepChangesTheConfiguration := by
  intro s t h
  obtain ⟨u, hu, hcases⟩ := step_cases s
  obtain rfl : u = t := Host.Outcome.next.inj (hu.symm.trans h)
  rcases hcases with ⟨-, rfl⟩ | ⟨-, -, -, rfl⟩ | ⟨-, -, -, rfl⟩ | ⟨-, -, -, -, hc⟩ | ⟨-, -, -, rfl⟩
  · rw [resetEdge_cfg, sampled_cfg]
  · rw [accept_cfg, sampled_cfg]
  · exact sampled_cfg s
  · rw [hc.cfg_eq, sampled_cfg]
  · rw [wait_cfg, sampled_cfg]

end Sys2Proof.Machine

/-! # The format converter: CONV, FROMINT, TOINT (R70 to R73) -/

namespace Sys2Proof

/-! ## Reading and writing a pattern, in the library's words -/

theorem Format.pattern_fits (f : Format) (z : Int) : f.fits (f.pattern z) = true := by
  rw [← f.wrap_eq_pattern]
  exact f.wrap_fits z

theorem Format.value_holds {f : Format} {x : Word} (h : f.fits x = true) : f.holds (f.value x) := by
  rw [← Format.ival_eq_value h]
  exact Format.ival_holds h

/-- An integer the storage type holds is read back unchanged. -/
theorem Format.value_pattern {f : Format} {z : Int} (h : f.holds z) : f.value (f.pattern z) = z := by
  rw [← Format.ival_eq_value (f.pattern_fits z), ← f.wrap_eq_pattern]
  exact Format.ival_wrap h

/-! ## The floor of a division by a power of two -/

/-- `fdiv(z, k)` of R14 is the library's floor division. -/
theorem floorShift_eq_fdiv (z : Int) (k : Nat) : floorShift z k = Int.fdiv z (pow2 k) :=
  (Int.fdiv_eq_ediv_of_nonneg z (pow2_pos k).le).symm

/-- A range around 0 is closed under floor division by a positive number. -/
theorem fdiv_mem_range {lo hi z d : Int} (hlo : lo ≤ 0) (hhi : 0 ≤ hi) (hd : 0 < d) (h : lo ≤ z ∧ z < hi) :
    lo ≤ Int.fdiv z d ∧ Int.fdiv z d < hi := by
  obtain ⟨hl, hh⟩ := h
  rw [Int.fdiv_eq_ediv_of_nonneg z hd.le, Int.le_ediv_iff_mul_le hd, Int.ediv_lt_iff_lt_mul hd]
  exact ⟨(mul_le_of_one_le_right hlo hd).trans hl, hh.trans_le (le_mul_of_one_le_right hhi hd)⟩

/-- R72: the floor of a value over a power of two always fits the storage type. -/
theorem Format.holds_fdiv {f : Format} {z : Int} (h : f.holds z) (k : Nat) : f.holds (Int.fdiv z (pow2 k)) := by
  unfold Format.holds at h ⊢
  by_cases hs : f.signed = true
  · rw [if_pos hs] at h ⊢
    exact fdiv_mem_range (neg_nonpos.2 (pow2_pos _).le) (pow2_pos _).le (pow2_pos k) h
  · rw [if_neg hs] at h ⊢
    exact fdiv_mem_range le_rfl (pow2_pos _).le (pow2_pos k) h

/-! ## The representable integers (R8) -/

/-- WB whole bits, F fraction bits and the sign bit, if there is one, make up the width. -/
theorem Format.pow2_wholeBits_mul_frac {f : Format} (h : 0 ≤ f.wholeBits) :
    pow2 f.wholeBits.toNat * pow2 f.frac = pow2 (if f.signed then f.w - 1 else f.w) := by
  rw [← pow2_add]
  congr 1
  unfold Format.wholeBits at h ⊢
  by_cases hs : f.signed = true
  · simp only [if_pos hs] at h ⊢
    omega
  · simp only [if_neg hs] at h ⊢
    omega

/-- R73: for `MIN_INT <= i <= MAX_INT`, `i * 2^F` fits the storage type. -/
theorem Format.holds_scaled {f : Format} {i : Int} (hwb : 0 ≤ f.wholeBits) (hmin : f.minInt ≤ i) (hmax : i ≤ f.maxInt) :
    f.holds (i * pow2 f.frac) := by
  have hsplit := Format.pow2_wholeBits_mul_frac hwb
  have hfrac := pow2_pos f.frac
  have hlt : i * pow2 f.frac < pow2 f.wholeBits.toNat * pow2 f.frac :=
    mul_lt_mul_of_pos_right (Int.lt_of_le_sub_one hmax) hfrac
  have hge : f.minInt * pow2 f.frac ≤ i * pow2 f.frac := mul_le_mul_of_nonneg_right hmin hfrac.le
  unfold Format.minInt at hge
  unfold Format.holds
  by_cases hs : f.signed = true
  · simp only [if_pos hs] at hsplit hge ⊢
    rw [neg_mul, hsplit] at hge
    exact ⟨hge, hsplit ▸ hlt⟩
  · simp only [if_neg hs] at hsplit hge ⊢
    rw [zero_mul] at hge
    exact ⟨hge, hsplit ▸ hlt⟩

theorem fdiv_scaled (i : Int) (k : Nat) : Int.fdiv (i * pow2 k) (pow2 k) = i := Int.mul_fdiv_cancel i (pow2_ne_zero k)

/-- R73: a representable integer is itself a value of the storage type, being `i * 2^F` shifted back. -/
theorem Format.holds_of_representable {f : Format} {i : Int} (hwb : 0 ≤ f.wholeBits) (hmin : f.minInt ≤ i)
    (hmax : i ≤ f.maxInt) : f.holds i :=
  fdiv_scaled i f.frac ▸ Format.holds_fdiv (Format.holds_scaled hwb hmin hmax) f.frac

end Sys2Proof

namespace Sys2Proof.Machine

open Sys2Proof

/-! ## The states a completion leaves are those the statements name -/

theorem finishRes_eq_withResult (v : Word) (s : State) : finishRes v s = s.withResult v := rfl

theorem finishCres_eq_withConverted (v : Word) (s : State) : finishCres v s = s.withConverted v := rfl

/-! ## The commands -/

/-- Settles O30: the model's shift is the stated one, and its cast is the destination's pattern. -/
theorem convShiftsThenCasts : Obligations.ConvShiftsThenCasts := by
  intro s a ha
  rw [exec_conv, finishCres_eq_withConverted, convValue, Format.wrap_eq_pattern, convShift, floorShift_eq_fdiv,
    Format.ival_eq_value ha]

/-- Settles O32: the model's wrap of the exact product is the pattern. -/
theorem fromIntScalesAndWraps : Obligations.FromIntScalesAndWraps := by
  intro s a ha
  rw [exec_fromint, finishRes_eq_withResult, fromIntValue, Format.wrap_eq_pattern, Format.ival_eq_value ha]

/-- TOINT writes the pattern of the floor (R72, before it is known that the floor fits). -/
theorem exec_toint_eq_pattern (s : State) {a : Word} (ha : s.cfg.src.fits a = true) :
    exec (.toint a) s =
      .next (s.withResult (s.cfg.src.pattern (Int.fdiv (s.cfg.src.value a) (pow2 s.cfg.src.frac)))) := by
  rw [exec_toint, finishRes_eq_withResult, toIntValue, Format.wrap_eq_pattern, floorShift_eq_fdiv,
    Format.ival_eq_value ha]

/-- Settles O33: the floor of a fitting value fits, so its pattern reads back as the floor itself. -/
theorem toIntFloorsTheValue : Obligations.ToIntFloorsTheValue := by
  intro s a ha
  exact ⟨_, exec_toint_eq_pattern s ha, Format.pattern_fits _ _,
    Format.value_pattern (Format.holds_fdiv (Format.value_holds ha) _)⟩

/-- Settles O34: neither the pattern of `i` nor that of `i * 2^F` wraps, and the floor undoes the scaling. -/
theorem representableIntegersRoundTrip : Obligations.RepresentableIntegersRoundTrip := by
  intro s i hwb hmin hmax
  have hi : s.cfg.src.value (s.cfg.src.pattern i) = i :=
    Format.value_pattern (Format.holds_of_representable hwb hmin hmax)
  have hscaled : s.cfg.src.value (s.cfg.src.pattern (i * pow2 s.cfg.src.frac)) = i * pow2 s.cfg.src.frac :=
    Format.value_pattern (Format.holds_scaled hwb hmin hmax)
  refine ⟨s.cfg.src.pattern (i * pow2 s.cfg.src.frac), ?_, ?_⟩
  · rw [fromIntScalesAndWraps s _ (Format.pattern_fits _ _), hi]
  · rw [exec_toint_eq_pattern s (Format.pattern_fits _ _), hscaled, fdiv_scaled]

end Sys2Proof.Machine

/-! # The adder: ADD, SUB, NEG (R80 to R82, R84) -/

namespace Sys2Proof

/-! ## Patterns add and negate modulo 2^W, for both signednesses -/

/-- Both readings of a word are congruent to its W-bit vector. -/
theorem Format.ofInt_value (f : Format) (x : Word) : BitVec.ofInt f.w (f.value x) = x.setWidth f.w := by
  unfold Format.value
  by_cases hs : f.signed = true
  · rw [if_pos hs, BitVec.ofInt_toInt]
  · rw [if_neg hs, BitVec.ofInt_natCast, BitVec.ofNat_toNat, BitVec.setWidth_eq]

/-- The container of 32 bits loses nothing of a W-bit pattern. -/
theorem Format.setWidth_pattern (f : Format) (z : Int) : (f.pattern z).setWidth f.w = BitVec.ofInt f.w z := by
  rw [Format.pattern, BitVec.setWidth_setWidth_of_le _ f.w_le, BitVec.setWidth_eq]

/-- A wrapped integer read back is congruent to the integer. -/
theorem Format.ofInt_value_pattern (f : Format) (z : Int) :
    BitVec.ofInt f.w (f.value (f.pattern z)) = BitVec.ofInt f.w z := by
  rw [f.ofInt_value, f.setWidth_pattern]

theorem Format.pattern_congr {f : Format} {y z : Int} (h : BitVec.ofInt f.w y = BitVec.ofInt f.w z) :
    f.pattern y = f.pattern z := congrArg (BitVec.setWidth 32) h

theorem Format.pattern_value {f : Format} {x : Word} (h : f.fits x = true) : f.pattern (f.value x) = x := by
  rw [← Format.ival_eq_value h, ← f.wrap_eq_pattern, Format.wrap_ival h]

theorem Format.pattern_zero (f : Format) : f.pattern 0 = 0 := by simp [Format.pattern]

theorem Format.pattern_value_add (f : Format) (a b : Word) :
    f.pattern (f.value a + f.value b) = (a.setWidth f.w + b.setWidth f.w).setWidth 32 := by
  rw [Format.pattern, BitVec.ofInt_add, f.ofInt_value, f.ofInt_value]

theorem Format.pattern_neg_value (f : Format) (a : Word) :
    f.pattern (-f.value a) = (-a.setWidth f.w).setWidth 32 := by
  rw [Format.pattern, BitVec.ofInt_neg, f.ofInt_value]

/-- R84: the sum is taken modulo 2^W, so a summand may be wrapped first. -/
theorem Format.pattern_add_value_pattern (f : Format) (y z : Int) :
    f.pattern (y + f.value (f.pattern z)) = f.pattern (y + z) := by
  apply Format.pattern_congr
  rw [BitVec.ofInt_add, f.ofInt_value_pattern, BitVec.ofInt_add]

/-- R84: so may the minuend of a difference. -/
theorem Format.pattern_value_pattern_sub (f : Format) (y z : Int) :
    f.pattern (f.value (f.pattern y) - z) = f.pattern (y - z) := by
  rw [sub_eq_neg_add, f.pattern_add_value_pattern, sub_eq_neg_add]

end Sys2Proof

namespace Sys2Proof.Machine

open Sys2Proof

/-! ## The commands -/

theorem exec_add_eq_pattern (s : State) {a b : Word} (ha : s.cfg.src.fits a = true) (hb : s.cfg.src.fits b = true) :
    exec (.add a b) s = .next (s.withResult (s.cfg.src.pattern (s.cfg.src.value a + s.cfg.src.value b))) := by
  rw [exec_add, finishRes_eq_withResult, addValue, Format.wrap_eq_pattern, Format.ival_eq_value ha,
    Format.ival_eq_value hb]

theorem exec_sub_eq_pattern (s : State) {a b : Word} (ha : s.cfg.src.fits a = true) (hb : s.cfg.src.fits b = true) :
    exec (.sub a b) s = .next (s.withResult (s.cfg.src.pattern (s.cfg.src.value a - s.cfg.src.value b))) := by
  rw [exec_sub, finishRes_eq_withResult, subValue, Format.wrap_eq_pattern, Format.ival_eq_value ha,
    Format.ival_eq_value hb]

theorem exec_neg_eq_pattern (s : State) {a : Word} (ha : s.cfg.src.fits a = true) :
    exec (.neg a) s = .next (s.withResult (s.cfg.src.pattern (-s.cfg.src.value a))) := by
  rw [exec_neg, finishRes_eq_withResult, negValue, Format.wrap_eq_pattern, Format.ival_eq_value ha]

/-- Settles O35: either reading is congruent to the pattern, so the exact sum wraps to the W-bit sum. -/
theorem addIsTheWrappedSum : Obligations.AddIsTheWrappedSum := fun s a b ha hb =>
  ⟨exec_add_eq_pattern s ha hb, s.cfg.src.pattern_value_add a b⟩

/-- Settles O37: either reading is congruent to the pattern, so the exact negation wraps to the W-bit negation. -/
theorem negIsTheWrappedNegation : Obligations.NegIsTheWrappedNegation := fun s a ha =>
  ⟨exec_neg_eq_pattern s ha, s.cfg.src.pattern_neg_value a⟩

/-- Settles O39: modulo 2^W the intermediate wrap is without effect, and on the integers the laws hold. -/
theorem adderLawsHoldWithOverflow : Obligations.AdderLawsHoldWithOverflow := by
  intro s a b ha hb
  refine ⟨_, _, _, _, exec_add_eq_pattern s ha hb, ?sub_undoes_add, exec_neg_eq_pattern s ha, ?add_neg_self,
    exec_neg_eq_pattern s hb, exec_sub_eq_pattern s ha hb, ?sub_is_add_neg⟩
  case sub_undoes_add =>
    rw [exec_sub_eq_pattern s (Format.pattern_fits _ _) hb, Format.pattern_value_pattern_sub, add_sub_cancel_right,
      Format.pattern_value ha]
  case add_neg_self =>
    rw [exec_add_eq_pattern s ha (Format.pattern_fits _ _), Format.pattern_add_value_pattern, add_neg_cancel,
      Format.pattern_zero]
  case sub_is_add_neg =>
    rw [exec_add_eq_pattern s ha (Format.pattern_fits _ _), Format.pattern_add_value_pattern, ← sub_eq_add_neg]

end Sys2Proof.Machine

/-! # The multiplier: MUL (R90) -/

namespace Sys2Proof.Machine

open Sys2Proof

/-- The value MUL computes (R90), in the library's words: floor of the exact product, then the pattern. -/
theorem mulValue_eq_pattern {f : Format} {a b : Word} (ha : f.fits a = true) (hb : f.fits b = true) :
    mulValue f a b = f.pattern (Int.fdiv (f.value a * f.value b) (pow2 f.frac)) := by
  rw [mulValue, Format.wrap_eq_pattern, floorShift_eq_fdiv, Format.ival_eq_value ha, Format.ival_eq_value hb]

/-- Settles O40: the model's shift of the exact product is the floor division, for both signs, and its wrap the pattern. -/
theorem mulFloorsTheExactProduct : Obligations.MulFloorsTheExactProduct := by
  intro s a b ha hb
  rw [exec_mul, finishRes_eq_withResult, mulValue_eq_pattern ha hb]

end Sys2Proof.Machine

/-! # The divider: DIVF (R95, R97) -/

namespace Sys2Proof

/-- `tdiv(n, d)` of R14 by signs and magnitudes; a quotient rounded to 0 has lost its sign. -/
theorem truncDiv_eq_sign_mul_natAbs_div (n d : Int) :
    truncDiv n d = n.sign * d.sign * ((n.natAbs / d.natAbs : Nat) : Int) := by
  calc truncDiv n d = (n.tdiv d).sign * ((n.tdiv d).natAbs : Int) := (Int.sign_mul_natAbs (n.tdiv d)).symm
    _ = (if n.natAbs < d.natAbs then 0 else n.sign * d.sign) * ((n.natAbs / d.natAbs : Nat) : Int) := by
      rw [Int.natAbs_tdiv, Int.sign_tdiv]
      rfl
    _ = n.sign * d.sign * ((n.natAbs / d.natAbs : Nat) : Int) := by
      by_cases hlt : n.natAbs < d.natAbs
      · rw [Nat.div_eq_of_lt hlt, Nat.cast_zero, mul_zero, mul_zero]
      · rw [if_neg hlt]

end Sys2Proof

namespace Sys2Proof.Machine

open Sys2Proof

/-- R136: a fault of a command with a destination leaves the whole fault entry, RES being some W-bit value. -/
theorem raise_faultEntry (s : State) {k : CmdFault} (hdest : k.hasDestination = true) :
    s.FaultEntry (raise k s) k.status k.sticky :=
  ⟨freeRaw s.cfg.src s.draws, s.draws + 1, freeRaw_fits _ _, by simp [raise, State.complete, hdest]⟩

theorem scaledDividend_eq_value_mul {f : Format} {a : Word} (ha : f.fits a = true) :
    scaledDividend f a = f.value a * pow2 f.frac := by
  rw [scaledDividend, Format.ival_eq_value ha]

/-- DIVF by a divisor other than zero writes the pattern of the quotient of R95, rounded toward zero. -/
theorem exec_divf_eq_pattern (s : State) {a b : Word} (ha : s.cfg.src.fits a = true) (hb : s.cfg.src.fits b = true)
    (hd : s.cfg.src.value b ≠ 0) :
    exec (.divf a b) s = .next (s.withResult (s.cfg.src.pattern
      (truncDiv (s.cfg.src.value a * pow2 s.cfg.src.frac) (s.cfg.src.value b)))) := by
  rw [← Format.ival_eq_value hb] at hd ⊢
  obtain ⟨hzero, -⟩ | ⟨-, hvalue⟩ := divfValue_cases s.cfg.src a b
  · exact absurd hzero hd
  · rw [exec_divf, hvalue, conclude, finishRes_eq_withResult, fastQuotient, Format.wrap_eq_pattern,
      scaledDividend_eq_value_mul ha]

/-- DIVF by zero raises DIV_BY_ZERO, whatever the dividend (R97). -/
theorem exec_divf_zero_divisor (s : State) (a : Word) {b : Word} (hb : s.cfg.src.fits b = true)
    (hd : s.cfg.src.value b = 0) : exec (.divf a b) s = .next (raise .divByZero s) := by
  rw [← Format.ival_eq_value hb] at hd
  obtain ⟨-, hvalue⟩ | ⟨hne, -⟩ := divfValue_cases s.cfg.src a b
  · rw [exec_divf, hvalue, conclude]
  · exact absurd hd hne

/-- Settles O43, by the divisor: the model's truncating quotient is the stated one, and a zero divisor takes the fault
entry of DIV_BY_ZERO. -/
theorem divfTruncatesTowardZero : Obligations.DivfTruncatesTowardZero := by
  intro s a b ha hb n d
  refine ⟨fun hd => ?nonzero, fun hd => ?zero⟩
  case nonzero => rw [exec_divf_eq_pattern s ha hb hd, truncDiv_eq_sign_mul_natAbs_div]
  case zero => exact ⟨_, exec_divf_zero_divisor s a hb hd, raise_faultEntry s rfl⟩

end Sys2Proof.Machine

/-! # Comparison and clamp: CMP, CLAMP (R120 to R122) -/

namespace Sys2Proof

/-- Equal readings are equal patterns, for operands that fit the port (R120). -/
theorem Format.value_inj {f : Format} {x y : Word} (hx : f.fits x = true) (hy : f.fits y = true) :
    f.value x = f.value y ↔ x = y := by
  rw [← Format.ival_eq_value hx, ← Format.ival_eq_value hy]
  exact ⟨Format.ival_injective hx hy, congrArg f.ival⟩

end Sys2Proof

namespace Sys2Proof.Machine

open Sys2Proof

theorem finishCc_eq_withComparison (c : BitVec 3) (s : State) : finishCc c s = s.withComparison c := rfl

theorem exec_cmp_eq_withComparison (s : State) (a b : Word) :
    exec (.cmp a b) s = .next (s.withComparison (compareFlags s.cfg.src a b)) := by
  rw [exec_cmp, finishCc_eq_withComparison]

theorem exec_clamp_eq_withResult (s : State) (a b c : Word) :
    exec (.clamp a b c) s = .next (s.withResult (clampValue s.cfg.src a b c)) := by
  rw [exec_clamp, finishRes_eq_withResult]

/-! ## The flags of a comparison, bit by bit -/

theorem getLsbD_ofBool_append : ∀ gt eq lt : Bool,
    let flags := BitVec.ofBool gt ++ BitVec.ofBool eq ++ BitVec.ofBool lt
    flags.getLsbD 2 = gt ∧ flags.getLsbD 1 = eq ∧ flags.getLsbD 0 = lt := by
  decide

/-- GT is bit 2 of CC (R24). -/
theorem compareFlags_gt (f : Format) (a b : Word) :
    (compareFlags f a b).getLsbD 2 = decide (f.ival b < f.ival a) := (getLsbD_ofBool_append _ _ _).1

/-- EQ is bit 1 of CC (R24). -/
theorem compareFlags_eq (f : Format) (a b : Word) :
    (compareFlags f a b).getLsbD 1 = decide (f.ival a = f.ival b) := (getLsbD_ofBool_append _ _ _).2.1

/-- LT is bit 0 of CC (R24). -/
theorem compareFlags_lt (f : Format) (a b : Word) :
    (compareFlags f a b).getLsbD 0 = decide (f.ival a < f.ival b) := (getLsbD_ofBool_append _ _ _).2.2

theorem compareFlags_gt_iff {f : Format} {a b : Word} (ha : f.fits a = true) (hb : f.fits b = true) :
    (compareFlags f a b).getLsbD 2 = true ↔ f.value b < f.value a := by
  rw [compareFlags_gt, decide_eq_true_iff, Format.ival_eq_value ha, Format.ival_eq_value hb]

theorem compareFlags_eq_iff {f : Format} {a b : Word} (ha : f.fits a = true) (hb : f.fits b = true) :
    (compareFlags f a b).getLsbD 1 = true ↔ a = b := by
  rw [compareFlags_eq, decide_eq_true_iff, Format.ival_eq_value ha, Format.ival_eq_value hb, Format.value_inj ha hb]

theorem compareFlags_lt_iff {f : Format} {a b : Word} (ha : f.fits a = true) (hb : f.fits b = true) :
    (compareFlags f a b).getLsbD 0 = true ↔ f.value a < f.value b := by
  rw [compareFlags_lt, decide_eq_true_iff, Format.ival_eq_value ha, Format.ival_eq_value hb]

/-- CC as a whole, by the order of the two integers (R120). -/
theorem compareFlags_eq_ite {f : Format} {a b : Word} (ha : f.fits a = true) (hb : f.fits b = true) :
    compareFlags f a b =
      if f.value a > f.value b then 0b100#3 else if f.value a = f.value b then 0b010#3 else 0b001#3 := by
  rw [compareFlags, Format.ival_eq_value ha, Format.ival_eq_value hb]
  rcases lt_trichotomy (f.value a) (f.value b) with h | h | h
  · simp [h, h.ne, not_lt.2 h.le]
  · simp [h]
  · simp [h, h.ne', not_lt.2 h.le]

/-! ## The commands -/

/-- Settles O56: the model's flags are the stated ones, and a fitting operand is determined by its value. -/
theorem cmpSetsTheFlagOfTheComparison : Obligations.CmpSetsTheFlagOfTheComparison := by
  intro s a b ha hb
  rw [exec_cmp_eq_withComparison, compareFlags_eq_ite ha hb]
  exact ⟨rfl, Format.value_inj ha hb⟩

/-- Settles O57: each bit of CC is a relation of the integers, which is mirrored under exchange and transitive; operands
that compare equal are the same pattern, so one replaces the other. -/
theorem comparisonIsATotalOrder : Obligations.ComparisonIsATotalOrder := by
  intro s a b c ha hb hc
  refine ⟨_, _, _, _, exec_cmp_eq_withComparison s a b, exec_cmp_eq_withComparison s b a,
    exec_cmp_eq_withComparison s b c, exec_cmp_eq_withComparison s a c, compareFlags_oneHot _ _ _,
    compareFlags_gt_iff ha hb, compareFlags_eq_iff ha hb, compareFlags_lt_iff ha hb, ?lt_mirrors_gt, ?eq_is_symmetric,
    ?gt_mirrors_lt, ?lt_is_transitive, fun hab => ?equal_on_the_left, fun hbc => ?equal_on_the_right⟩
  case lt_mirrors_gt => rw [compareFlags_lt, compareFlags_gt]
  case eq_is_symmetric => simp only [compareFlags_eq, eq_comm]
  case gt_mirrors_lt => rw [compareFlags_lt, compareFlags_gt]
  case lt_is_transitive =>
    rw [compareFlags_lt_iff ha hb, compareFlags_lt_iff hb hc, compareFlags_lt_iff ha hc]
    exact lt_trans
  case equal_on_the_left => rw [(compareFlags_eq_iff ha hb).1 hab]
  case equal_on_the_right => rw [(compareFlags_eq_iff hb hc).1 hbc]

/-- The operand CLAMP selects (R121), in the library's words: low is tested first. -/
theorem clampValue_eq_ite {f : Format} {a b c : Word} (ha : f.fits a = true) (hb : f.fits b = true)
    (hc : f.fits c = true) :
    clampValue f a b c = if f.value a < f.value b then b else if f.value c < f.value a then c else a := by
  rw [clampValue, Format.ival_eq_value ha, Format.ival_eq_value hb, Format.ival_eq_value hc]

/-- Settles O58, by the branches of the selection: below low, not below low but above high, neither. -/
theorem clampSelectsAnOperand : Obligations.ClampSelectsAnOperand := by
  intro s a b c ha hb hc
  rw [exec_clamp_eq_withResult, clampValue_eq_ite ha hb hc]
  refine ⟨fun hbelow => ?below, fun hlow habove => ?above, fun hlow hhigh => ?between⟩
  case below => rw [if_pos hbelow]
  case above => rw [if_neg hlow.not_gt, if_pos habove]
  case between => rw [if_neg hlow.not_gt, if_neg hhigh.not_gt]

end Sys2Proof.Machine

/-! # Exceptions: the reserved code (R55, R133) -/

namespace Sys2Proof

/-- The decoder keeps the operation code, whatever the operand fields hold (R52). The last branch of `decodeCmd` is 0xF
because a four-bit field has no other value left. -/
@[simp] theorem decodeCmd_opcode (k : Cmd) : (decodeCmd k).opcode = k.op := by
  apply BitVec.eq_of_toNat_eq
  have hop : k.op.toNat < 16 := k.op.isLt
  unfold decodeCmd
  split
  case h_16 => simp only [imp_false, Instr.opcode, BitVec.toNat_ofNat] at *; omega
  all_goals next hcode => exact hcode.symm

theorem Instr.opcode_eq_reserved_iff (i : Instr) : i.opcode = 0xF#4 ↔ i = .illegal := by
  cases i <;> simp [Instr.opcode]

end Sys2Proof

namespace Sys2Proof.Machine

open Sys2Proof

/-- R133: ILLEGAL_OP has no destination, so its fault entry is a whole next state with no free value in it. -/
theorem raise_illegalOp (s : State) :
    raise .illegalOp s = { s with
      status := 0b11#2, fsr := s.fsr ||| 0b100#3, busy := false, rvalid := true
      specified := { s.specified with status := true } } := rfl

/-- Settles O28: the decoder keeps the operation code and only the reserved command has 0xF; its fault entry is that of
a fault without destination. -/
theorem reservedCodeTakesIllegalOp : Obligations.ReservedCodeTakesIllegalOp := by
  refine ⟨fun k => ?decoded, fun s => ?completed⟩
  case decoded => rw [← Instr.opcode_eq_reserved_iff, decodeCmd_opcode]
  case completed => rw [exec_illegal, raise_illegalOp]

end Sys2Proof.Machine

/-! # Encoding: decoder and encoder (R50, R52, R53) -/

namespace Sys2Proof

/-- Settles O1, by evaluating the decoder on the six words. -/
theorem writtenCommandWordsDecode : Obligations.WrittenCommandWordsDecode :=
  ⟨rfl, rfl, rfl, rfl, rfl, rfl⟩

/-- Settles O2: the encoded word has the width of a command word, the fields come back out of it, and the decoder reads
the command from them. -/
theorem decodeOfEncodedCommandIsTheCommand : Obligations.DecodeOfEncodedCommandIsTheCommand := by
  intro f i h
  obtain ⟨hlt, -⟩ := Laws.EncodedWord.of_wf i f h
  obtain ⟨ha, hb, hc⟩ := (Cmd.wf_iff f _).1 (Instr.toCmd_wf h)
  rw [f.fits_iff] at ha hb hc
  rw [decode, if_pos hlt, encode, Cmd.ofWord_toWord ha hb hc, decodeCmd_toCmd]

theorem Format.fits_zero (f : Format) : f.fits 0 = true := (f.fits_iff 0).2 (Nat.two_pow_pos _)

/-- A field of W bits cut out of a number fits its port. -/
theorem Format.fits_ofNat_mod (f : Format) (w : Nat) : f.fits (BitVec.ofNat 32 (w % 2 ^ f.w)) = true := by
  rw [f.fits_iff, BitVec.toNat_ofNat]
  exact (Nat.mod_le _ _).trans_lt (Nat.mod_lt _ (Nat.two_pow_pos _))

theorem Cmd.ofWord_wf (f : Format) (w : Nat) : (Cmd.ofWord f.w w).wf f = true :=
  (Cmd.wf_iff f _).2 ⟨f.fits_ofNat_mod _, f.fits_ofNat_mod _, f.fits_ofNat_mod _⟩

/-- The op field is the top four bits of a command word (R50). -/
theorem Cmd.ofWord_op_toNat {n w : Nat} (h : w < 2 ^ (4 + 3 * n)) : (Cmd.ofWord n w).op.toNat = w / 2 ^ (3 * n) := by
  have htop : w / 2 ^ (3 * n) < 2 ^ 4 := by
    rw [Nat.div_lt_iff_lt_mul (Nat.two_pow_pos _), ← pow_add]
    exact h
  exact (BitVec.toNat_ofNat _ _).trans (Nat.mod_eq_of_lt htop)

/-- Settles O3: any four fields decode, to a command of the op field's code. -/
theorem decoderIsTotalOnCommandWords : Obligations.DecoderIsTotalOnCommandWords := by
  intro f w
  refine ⟨fun h => ⟨decodeCmd (Cmd.ofWord f.w w), ?_, decodeCmd_wf (Cmd.ofWord_wf f w), ?_⟩, fun h => ?_⟩
  · rw [decode, if_pos h]
  · rw [decodeCmd_opcode, Cmd.ofWord_op_toNat h]
  · rw [decode, if_neg h.not_gt]

/-- R53: the decoder reads `op`, and of the operand fields those the command has. -/
theorem decodeCmd_congr {k k' : Cmd} (hop : k.op = k'.op) (ha : k.op ≠ 0xF#4 → k.a = k'.a)
    (hb : k.op = 0x3#4 ∨ k.op = 0x4#4 ∨ k.op = 0x6#4 ∨ k.op = 0x7#4 ∨ k.op = 0x8#4 ∨ k.op = 0xA#4 ∨ k.op = 0xE#4 →
      k.b = k'.b) (hc : k.op = 0xA#4 → k.c = k'.c) : decodeCmd k = decodeCmd k' := by
  unfold decodeCmd
  rw [← hop]
  split
  case h_16 => rfl
  all_goals
    next hcode =>
      -- the branch fixes `op`, so each hypothesis says outright whether its operand is read
      have hcode := congrArg (BitVec.ofNat 4) hcode
      simp only [BitVec.ofNat_toNat, BitVec.setWidth_eq] at hcode
      simp [hcode] at ha hb hc
      simp [*]

end Sys2Proof

namespace Sys2Proof.Machine

open Sys2Proof

/-- A completion edge, by its three conditions (R153). -/
theorem edge_complete {s : State} (hrst : s.ports.rst = false) (hbusy : s.busy = true) (hlast : s.remaining = 0) :
    s.edge = .complete s.cmdq := by
  simp [State.edge, State.cmdReady, hrst, hbusy, hlast]

theorem step_complete {s : State} (hrst : s.ports.rst = false) (hbusy : s.busy = true) (hlast : s.remaining = 0) :
    step s = exec (decodeCmd s.cmdq) s.sampled := step_of_complete (edge_complete hrst hbusy hlast)

/-- Settles O4: both words decode to one command, and its completion does not read CMDQ. -/
theorem unreadOperandFieldsAreIgnored : Obligations.UnreadOperandFieldsAreIgnored := by
  intro s k k' hop ha hb hc hrst hbusy hlast
  obtain ⟨t, ht, hk⟩ := exec_with_cmdq (decodeCmd k) s.sampled k
  obtain ⟨t', ht', hk'⟩ := exec_with_cmdq (decodeCmd k) s.sampled k'
  obtain rfl : t = t' := Host.Outcome.next.inj (ht.symm.trans ht')
  refine ⟨t, ?_, ?_⟩
  · exact (step_complete (s := { s with cmdq := k }) hrst hbusy hlast).trans hk
  · rw [decodeCmd_congr hop ha hb hc] at hk'
    exact (step_complete (s := { s with cmdq := k' }) hrst hbusy hlast).trans hk'

end Sys2Proof.Machine

/-! # The step: what each edge does and keeps (R26 to R28, R49, R150 to R157) -/

namespace Sys2Proof.Machine

open Sys2Proof

/-! ## Which edge, by its conditions -/

theorem edge_accept {s : State} (hrst : s.ports.rst = false) (hbusy : s.busy = false)
    (hvalid : s.ports.cmdValid = true) : s.edge = .accept s.ports.cmd := by
  simp [State.edge, State.cmdReady, hrst, hbusy, hvalid]

theorem edge_idle {s : State} (hrst : s.ports.rst = false) (hbusy : s.busy = false)
    (hvalid : s.ports.cmdValid = false) : s.edge = .idle := by
  simp [State.edge, State.cmdReady, hrst, hbusy, hvalid]

theorem edge_wait {s : State} (hrst : s.ports.rst = false) (hbusy : s.busy = true) (hleft : s.remaining ≠ 0) :
    s.edge = .wait := by
  simp [State.edge, State.cmdReady, hrst, hbusy, hleft]

theorem edge_reset {s : State} (hrst : s.ports.rst = true) : s.edge = .reset := by simp [State.edge, hrst]

/-! ## The edges one by one -/

/-- Settles O7; the encoded word of a CMDQ that fits its ports has the fields of CMDQ. -/
theorem completionStepRunsTheDecodedCommand : Obligations.CompletionStepRunsTheDecodedCommand := by
  intro s hrst hbusy hlast
  have hstep := step_complete hrst hbusy hlast
  refine ⟨hstep, fun i hi hwf => ?_⟩
  obtain ⟨ha, hb, hc⟩ := (Cmd.wf_iff _ _).1 hwf
  rw [Format.fits_iff] at ha hb hc
  rw [decode, if_pos (Cmd.toWord_lt ha hb hc), Cmd.ofWord_toWord ha hb hc] at hi
  cases hi
  exact hstep

/-- Settles O8: a command that fits its ports is latched unchanged. -/
theorem acceptEdgeLatchesTheCommand : Obligations.AcceptEdgeLatchesTheCommand := by
  intro s hrst hbusy hvalid hwf
  have hstep := step_of_accept (edge_accept hrst hbusy hvalid)
  rw [accept, sampled_cfg, Cmd.onPorts_of_wf hwf] at hstep
  exact ⟨_, _, hstep⟩

/-- Settles O9: a busy unit waits or completes, by the count of edges left, and either way the sample is dropped. -/
theorem portsAreIgnoredWhileBusy : Obligations.PortsAreIgnoredWhileBusy := by
  intro s p q rest hbusy hp hq
  by_cases hlast : s.remaining = 0
  · rw [step_complete (s := { s with inputs := p :: rest }) hp hbusy hlast,
      step_complete (s := { s with inputs := q :: rest }) hq hbusy hlast]
    rfl
  · rw [step_of_wait (edge_wait (s := { s with inputs := p :: rest }) hp hbusy hlast),
      step_of_wait (edge_wait (s := { s with inputs := q :: rest }) hq hbusy hlast)]
    rfl

/-- Settles O10: both edges are determined by BUSY, `cmd_valid` and the count of edges left. -/
theorem waitingAndIdleEdgesChangeNoRegister : Obligations.WaitingAndIdleEdgesChangeNoRegister := fun _ hrst =>
  ⟨fun hbusy hvalid => step_of_idle (edge_idle hrst hbusy hvalid),
    fun hbusy hleft => step_of_wait (edge_wait hrst hbusy hleft)⟩

/-- The free command a reset leaves in CMDQ has operands of their widths. -/
theorem resetEdge_cmdq_wf (s : State) : (resetEdge s).cmdq.wf s.cfg.src = true :=
  (Cmd.wf_iff _ _).2 ⟨freeRaw_fits _ _, freeRaw_fits _ _, freeRaw_fits _ _⟩

/-- Settles O11: every free value is cut to its register's width. -/
theorem resetEdgeClearsTheControlState : Obligations.ResetEdgeClearsTheControlState := fun s hrst =>
  ⟨_, _, _, _, _, _, freeRaw_fits _ _, freeRaw_fits _ _, resetEdge_cmdq_wf s.sampled, step_of_reset (edge_reset hrst)⟩

/-- Settles O12, by evaluating the reset state's fields and the host's reading functions. -/
theorem resetStateHoldsTheStatedValues : Obligations.ResetStateHoldsTheStatedValues := fun _ =>
  ⟨rfl, rfl, rfl, rfl, rfl, rfl, rfl, rfl, rfl⟩

/-- Settles O15: of whatever kind the edge is, it answers a next state. -/
theorem everyStepAnswersANextState : Obligations.EveryStepAnswersANextState := fun s =>
  let ⟨t, ht, _⟩ := step_cases s
  ⟨t, ht⟩

/-- The inversion of a step that is known to answer `t`. -/
theorem step_inversion {s t : State} (h : step s = .next t) :
    (s.ports.rst = true ∧ t = resetEdge s.sampled) ∨
    (s.ports.rst = false ∧ s.busy = false ∧ s.ports.cmdValid = true ∧ t = accept s.ports.cmd s.sampled) ∨
    (s.ports.rst = false ∧ s.busy = false ∧ s.ports.cmdValid = false ∧ t = s.sampled) ∨
    (s.ports.rst = false ∧ s.busy = true ∧ s.remaining = 0 ∧ exec (decodeCmd s.cmdq) s.sampled = .next t ∧
      Completes (decodeCmd s.cmdq) s.sampled t) ∨
    (s.ports.rst = false ∧ s.busy = true ∧ s.remaining ≠ 0 ∧ t = wait s.sampled) := by
  obtain ⟨u, hu, hcases⟩ := step_cases s
  obtain rfl : u = t := Host.Outcome.next.inj (hu.symm.trans h)
  exact hcases

/-! ## The invariant -/

/-- Settles O13: zero fits every width, the unit is idle, and nothing is specified. -/
theorem resetStateMeetsTheInvariant : Obligations.ResetStateMeetsTheInvariant := by
  intro cfg
  refine ⟨⟨Format.fits_zero _, Format.fits_zero _, (Cmd.wf_iff _ _).2 ?_⟩, ⟨by simp, fun _ => rfl⟩, ?_⟩
  · exact ⟨Format.fits_zero _, Format.fits_zero _, Format.fits_zero _⟩
  · simp [State.ResponseLegal, Specified.nothing]

/-- A completion of a well-formed command leaves registers of their widths. -/
theorem Completes.registersFit {i : Instr} {s t : State} (h : Completes i s t) (hi : i.wf s.cfg.src = true)
    (hs : s.RegistersFit) : t.RegistersFit := by
  obtain ⟨hres, hcres, hcmdq⟩ := hs
  cases h with
  | res v hv h => subst h; exact ⟨hv hi, hcres, hcmdq⟩
  | cres v hv h => subst h; exact ⟨hres, hv, hcmdq⟩
  | cc a b h => subst h; exact ⟨hres, hcres, hcmdq⟩
  | fault k h =>
    subst h
    refine ⟨?_, hcres, hcmdq⟩
    rw [raise_res]
    split
    · exact freeRaw_fits _ _
    · exact hres

/-- A completion answers: BUSY is 0, RVALID is 1, and the count of edges left is as it was. -/
theorem Completes.protocol {i : Instr} {s t : State} (h : Completes i s t) :
    t.busy = false ∧ t.rvalid = true ∧ t.remaining = s.remaining := by
  cases h with
  | res v _ h => subst h; exact ⟨rfl, rfl, rfl⟩
  | cres v _ h => subst h; exact ⟨rfl, rfl, rfl⟩
  | cc a b h => subst h; exact ⟨rfl, rfl, rfl⟩
  | fault k h => subst h; exact ⟨rfl, rfl, rfl⟩

/-- STATUS = OK is no fault's code, so it asks for no sticky bit (R25). -/
theorem statusOk_legal (fsr : BitVec 3) :
    (statusOk = 0b01#2 → fsr.getLsbD 0 = true) ∧ (statusOk = 0b10#2 → fsr.getLsbD 1 = true) ∧
    (statusOk = 0b11#2 → fsr.getLsbD 2 = true) :=
  ⟨fun h => absurd h (by decide), fun h => absurd h (by decide), fun h => absurd h (by decide)⟩

/-- Each fault's code comes with its sticky bit, whatever FSR held (R26). -/
theorem CmdFault.status_legal (k : CmdFault) (fsr : BitVec 3) :
    (k.status = 0b01#2 → (fsr ||| k.sticky).getLsbD 0 = true) ∧
    (k.status = 0b10#2 → (fsr ||| k.sticky).getLsbD 1 = true) ∧
    (k.status = 0b11#2 → (fsr ||| k.sticky).getLsbD 2 = true) := by
  cases k <;> simp [CmdFault.status, CmdFault.sticky]

/-- A completion leaves a legal response: OK, or a fault with its sticky bit; CC is kept or written by a comparison. -/
theorem Completes.responseLegal {i : Instr} {s t : State} (h : Completes i s t) (hs : s.ResponseLegal) :
    t.ResponseLegal := by
  obtain ⟨hcc, -, -⟩ := hs
  cases h with
  | res v _ h => subst h; exact ⟨hcc, fun _ => rfl, fun _ => statusOk_legal _⟩
  | cres v _ h => subst h; exact ⟨hcc, fun _ => rfl, fun _ => statusOk_legal _⟩
  | cc a b h => subst h; exact ⟨fun _ => compareFlags_oneHot _ _ _, fun _ => rfl, fun _ => statusOk_legal _⟩
  | fault k h => subst h; exact ⟨hcc, fun _ => rfl, fun _ => k.status_legal _⟩

theorem resetEdge_inv (s : State) : (resetEdge s).Inv :=
  ⟨⟨freeRaw_fits _ _, freeRaw_fits _ _, resetEdge_cmdq_wf s⟩, ⟨by simp, fun _ => rfl⟩,
    by simp [State.ResponseLegal, Specified.nothing]⟩

/-- Settles O14, by the five edges: a reset leaves fitting free values and nothing specified, a completion leaves a
legal response, and the others touch CMDQ, BUSY, RVALID and the count of edges only. -/
theorem everyStepKeepsTheInvariant : Obligations.EveryStepKeepsTheInvariant := by
  rintro s t ⟨hfit, hprotocol, hresponse⟩ hstep
  rcases step_inversion hstep with
    ⟨-, rfl⟩ | ⟨-, -, -, rfl⟩ | ⟨-, -, -, rfl⟩ | ⟨-, -, hlast, -, hc⟩ | ⟨-, hbusy, -, rfl⟩
  case inl => exact resetEdge_inv _
  case inr.inl =>
    obtain ⟨hres, hcres, -⟩ := hfit
    obtain ⟨hcc, -, hstatus⟩ := hresponse
    exact ⟨⟨hres, hcres, Cmd.onPorts_wf _ _⟩, ⟨by simp, by simp⟩, hcc, by simp, hstatus⟩
  case inr.inr.inl => exact ⟨hfit, hprotocol, hresponse⟩
  case inr.inr.inr.inl =>
    obtain ⟨hres, hcres, hcmdq⟩ := hfit
    obtain ⟨hidle, hvalid, hcount⟩ := hc.protocol
    refine ⟨hc.registersFit (decodeCmd_wf hcmdq) ⟨hres, hcres, hcmdq⟩, ⟨?_, fun _ => hcount.trans hlast⟩,
      hc.responseLegal hresponse⟩
    simp [hidle]
  case inr.inr.inr.inr =>
    obtain ⟨hexclusive, -⟩ := hprotocol
    exact ⟨hfit, ⟨hexclusive, by simp [hbusy]⟩, hresponse⟩

/-! ## FSR and the response registers -/

/-- R26: a completion only adds bits to FSR. -/
theorem Completes.fsr_getLsbD {i : Instr} {s t : State} (h : Completes i s t) {j : Nat} (hj : s.fsr.getLsbD j = true) :
    t.fsr.getLsbD j = true := by
  cases h with
  | res v _ h => rw [h, finishRes_fsr, hj]
  | cres v _ h => rw [h, finishCres_fsr, hj]
  | cc a b h => rw [h, finishCc_fsr, hj]
  | fault k h => rw [h, raise_fsr, BitVec.getLsbD_or, hj, Bool.true_or]

/-- Settles O17, by the edges that are no reset: a completion only adds bits, the others do not touch FSR. -/
theorem onlyResetClearsAFaultBit : Obligations.OnlyResetClearsAFaultBit := by
  intro s t j hstep hrst hj
  rcases step_inversion hstep with ⟨hr, -⟩ | ⟨-, -, -, rfl⟩ | ⟨-, -, -, rfl⟩ | ⟨-, -, -, -, hc⟩ | ⟨-, -, -, rfl⟩
  · exact absurd (hrst.symm.trans hr) Bool.false_ne_true
  · exact hj
  · exact hj
  · exact hc.fsr_getLsbD hj
  · exact hj

/-- Settles O18: with resets and completions shut out, an accept, an idle or a waiting edge is left. -/
theorem responseIsStableBetweenCompletions : Obligations.ResponseIsStableBetweenCompletions := by
  intro s t hstep hrst hnone
  rcases step_inversion hstep with ⟨hr, -⟩ | ⟨-, -, -, rfl⟩ | ⟨-, -, -, rfl⟩ | ⟨-, hb, hlast, -, -⟩ | ⟨-, -, -, rfl⟩
  · exact absurd (hrst.symm.trans hr) Bool.false_ne_true
  · exact ⟨rfl, rfl⟩
  · exact ⟨rfl, rfl⟩
  · rcases hnone with hidle | hleft
    · exact absurd (hidle.symm.trans hb) Bool.false_ne_true
    · exact absurd hlast hleft
  · exact ⟨rfl, rfl⟩

/-! ## Unspecified values: every operation takes agreeing states to agreeing states -/

theorem State.Agree.finishRes {s t : State} (h : s.Agree t) (v : Word) : (finishRes v s).Agree (finishRes v t) :=
  { h with
    busy := rfl, rvalid := rfl, cmdq := by simp, res := fun _ => rfl, status := fun _ => rfl
    specified := by rw [finishRes_specified, finishRes_specified, h.specified] }

theorem State.Agree.finishCres {s t : State} (h : s.Agree t) (v : Word) : (finishCres v s).Agree (finishCres v t) :=
  { h with
    busy := rfl, rvalid := rfl, cmdq := by simp, cres := fun _ => rfl, status := fun _ => rfl
    specified := by rw [finishCres_specified, finishCres_specified, h.specified] }

theorem State.Agree.finishCc {s t : State} (h : s.Agree t) (c : BitVec 3) : (finishCc c s).Agree (finishCc c t) :=
  { h with
    busy := rfl, rvalid := rfl, cmdq := by simp, cc := fun _ => rfl, status := fun _ => rfl
    specified := by rw [finishCc_specified, finishCc_specified, h.specified] }

/-- A fault draws its free value with equal counters; without a destination it keeps RES and the flag of RES. -/
theorem State.Agree.raise {s t : State} (h : s.Agree t) (k : CmdFault) : (raise k s).Agree (raise k t) :=
  { h with
    busy := rfl, rvalid := rfl, cmdq := by simp, status := fun _ => rfl
    fsr := by rw [raise_fsr, raise_fsr, h.fsr]
    draws := by rw [raise_draws, raise_draws, h.draws]
    specified := by rw [raise_specified, raise_specified, h.specified]
    res := by
      intro hres
      rw [raise_specified, Bool.and_eq_true, Bool.not_eq_true'] at hres
      obtain ⟨hdest, hspec⟩ := hres
      simp only [raise_res, hdest, Bool.false_eq_true, if_false]
      exact h.res hspec }

theorem State.Agree.conclude {s t : State} (h : s.Agree t) (r : Except CmdFault Word) :
    (conclude r s).Agree (conclude r t) := by
  cases r with
  | ok v => exact h.finishRes v
  | error k => exact h.raise k

/-- A command completes alike in agreeing states: no register enters its outcome (R16). -/
theorem State.Agree.exec {s t : State} (h : s.Agree t) (i : Instr) :
    ∃ s' t', exec i s = .next s' ∧ exec i t = .next t' ∧ s'.Agree t' := by
  by_cases hconv : ∃ a, i = .conv a
  · obtain ⟨a, rfl⟩ := hconv
    refine ⟨_, _, exec_conv a s, exec_conv a t, ?_⟩
    rw [← h.cfg]
    exact h.finishCres _
  by_cases hcmp : ∃ a b, i = .cmp a b
  · obtain ⟨a, b, rfl⟩ := hcmp
    refine ⟨_, _, exec_cmp a b s, exec_cmp a b t, ?_⟩
    rw [← h.cfg]
    exact h.finishCc _
  obtain ⟨outcome, hexec⟩ := exec_concludes i (not_exists.1 hconv) (by simpa using hcmp)
  refine ⟨_, _, hexec s, hexec t, ?_⟩
  rw [← h.cfg]
  exact h.conclude _

theorem State.Agree.sampled {s t : State} (h : s.Agree t) : s.sampled.Agree t.sampled :=
  { h with inputs := congrArg List.tail h.inputs }

theorem State.Agree.wait {s t : State} (h : s.Agree t) : (wait s).Agree (wait t) :=
  { h with remaining := congrArg (· - 1) h.remaining }

/-- An accept draws its latency with equal counters. -/
theorem State.Agree.accept {s t : State} (h : s.Agree t) (k : Cmd) : (accept k s).Agree (accept k t) :=
  { h with
    busy := rfl, rvalid := rfl
    remaining := by rw [accept_remaining, accept_remaining, h.cfg, h.draws]
    draws := by rw [accept_draws, accept_draws, h.draws]
    cmdq := fun _ => by rw [accept_cmdq, accept_cmdq, h.cfg] }

theorem State.Agree.resetEdge {s t : State} (h : s.Agree t) : (resetEdge s).Agree (resetEdge t) :=
  { h with
    fsr := rfl, busy := rfl, rvalid := rfl, remaining := rfl, specified := rfl
    cmdq := by simp, res := by simp [Specified.nothing], cres := by simp [Specified.nothing]
    cc := by simp [Specified.nothing], status := by simp [Specified.nothing]
    draws := by rw [resetEdge_draws, resetEdge_draws, h.draws] }

/-- What decides the kind of an edge is specified: agreeing states see the same edge. -/
theorem State.Agree.edge_eq {s t : State} (h : s.Agree t) : s.edge = t.edge := by
  have hports : s.ports = t.ports := by rw [State.ports, State.ports, h.inputs]
  rcases edge_cases s with ⟨hr, he⟩ | ⟨hr, hb, hv, he⟩ | ⟨hr, hb, hv, he⟩ | ⟨hr, hb, h0, he⟩ | ⟨hr, hb, h0, he⟩ <;>
    rw [he]
  · rw [edge_reset (hports ▸ hr)]
  · rw [edge_accept (hports ▸ hr) (h.busy ▸ hb) (hports ▸ hv), hports]
  · rw [edge_idle (hports ▸ hr) (h.busy ▸ hb) (hports ▸ hv)]
  · rw [edge_complete (hports ▸ hr) (h.busy ▸ hb) (h.remaining ▸ h0), h.cmdq hb]
  · rw [edge_wait (hports ▸ hr) (h.busy ▸ hb) (h.remaining ▸ h0)]

/-- Settles O21: agreeing states see the same edge, and what is done at it keeps the agreement. -/
theorem unspecifiedValuesNeverLeak : Obligations.UnspecifiedValuesNeverLeak := by
  intro s t h
  have hedge := h.edge_eq.symm
  cases hs : s.edge with
  | reset => exact ⟨_, _, step_of_reset hs, step_of_reset (hedge.trans hs), h.sampled.resetEdge⟩
  | accept k => exact ⟨_, _, step_of_accept hs, step_of_accept (hedge.trans hs), h.sampled.accept k⟩
  | wait => exact ⟨_, _, step_of_wait hs, step_of_wait (hedge.trans hs), h.sampled.wait⟩
  | complete k =>
    rw [step_of_complete hs, step_of_complete (hedge.trans hs)]
    exact h.sampled.exec (decodeCmd k)
  | idle => exact ⟨_, _, step_of_idle hs, step_of_idle (hedge.trans hs), h.sampled⟩

end Sys2Proof.Machine

/-! # Completions: destination, status and what the host reads (R22 to R27, R130, R136, R152, R154) -/

namespace Sys2Proof.Machine

open Sys2Proof

/-! ## A completion by its destination -/

/-- The five ways a command completes, by where its result goes: CRES, CC, RES, nowhere (the reserved code), or to RES
with a fault (R22 to R24, R136). -/
inductive CompletesTo (s : State) : Instr → State → Prop where
  | cres (a v : Word) : CompletesTo s (.conv a) (finishCres v s)
  | cc (a b : Word) (flags : BitVec 3) : CompletesTo s (.cmp a b) (finishCc flags s)
  | nowhere : CompletesTo s .illegal (raise .illegalOp s)
  | res (i : Instr) (v : Word) (hconv : ∀ a, i ≠ .conv a) (hcmp : ∀ a b, i ≠ .cmp a b) (hillegal : i ≠ .illegal) :
      CompletesTo s i (finishRes v s)
  | fault (i : Instr) (k : CmdFault) (hdest : k.hasDestination = true) (hconv : ∀ a, i ≠ .conv a)
      (hcmp : ∀ a b, i ≠ .cmp a b) (hillegal : i ≠ .illegal) : CompletesTo s i (raise k s)

/-- The commands whose result goes to RES. -/
theorem completesTo_conclude {f : Format} {i : Instr} {r : Except CmdFault Word} (h : GoodResult f r) (s : State)
    (hconv : ∀ a, i ≠ .conv a) (hcmp : ∀ a b, i ≠ .cmp a b) (hillegal : i ≠ .illegal) :
    CompletesTo s i (conclude r s) := by
  rcases h with ⟨v, rfl, -⟩ | rfl | rfl
  · exact .res i v hconv hcmp hillegal
  · exact .fault i .divByZero rfl hconv hcmp hillegal
  · exact .fault i .sqrtNegative rfl hconv hcmp hillegal

theorem exec_completesTo {i : Instr} {s t : State} (h : exec i s = .next t) : CompletesTo s i t := by
  cases i <;> obtain rfl := Host.Outcome.next.inj h
  case conv a => exact .cres a _
  case cmp a b => exact .cc a b _
  case illegal => exact .nowhere
  case divf => exact completesTo_conclude (divfValue_good _ _ _) s nofun nofun nofun
  case divr => exact completesTo_conclude (divrValue_good _ _ _) s nofun nofun nofun
  case sqrtc => exact completesTo_conclude (sqrtcValue_good _ _) s nofun nofun nofun
  case sqrtr => exact completesTo_conclude (sqrtrValue_good _ _) s nofun nofun nofun
  case sqrt => exact completesTo_conclude (sqrtValue_good _ _) s nofun nofun nofun
  all_goals exact .res _ _ nofun nofun nofun

/-- Settles O22, by the five ways to complete: each writes one of CRES, CC and RES, or none. -/
theorem onlyTheDestinationIsWritten : Obligations.OnlyTheDestinationIsWritten := by
  intro i s t h
  cases exec_completesTo h with
  | cres a v =>
    exact ⟨fun hne => absurd rfl (hne a), fun _ => ⟨rfl, rfl⟩, fun _ => ⟨rfl, rfl⟩, rfl, rfl, rfl, rfl⟩
  | cc a b flags =>
    exact ⟨fun _ => ⟨rfl, rfl⟩, fun hne => absurd rfl (hne a b), fun _ => ⟨rfl, rfl⟩, rfl, rfl, rfl, rfl⟩
  | nowhere => exact ⟨fun _ => ⟨rfl, rfl⟩, fun _ => ⟨rfl, rfl⟩, fun _ => ⟨rfl, rfl⟩, rfl, rfl, rfl, rfl⟩
  | res _ v hconv hcmp hillegal =>
    exact ⟨fun _ => ⟨rfl, rfl⟩, fun _ => ⟨rfl, rfl⟩, by simp [hconv, hcmp, hillegal], rfl, rfl, rfl, rfl⟩
  | fault _ k _ hconv hcmp hillegal =>
    exact ⟨fun _ => ⟨rfl, rfl⟩, fun _ => ⟨rfl, rfl⟩, by simp [hconv, hcmp, hillegal], rfl, rfl, rfl, rfl⟩

/-! ## STATUS and FSR -/

/-- FSR after a completion is determined by STATUS: unchanged when OK, one more bit for each fault code (R25, R26). -/
abbrev State.FsrFollowsStatus (s t : State) : Prop :=
  (t.status = 0b00#2 → t.fsr = s.fsr) ∧ (t.status = 0b01#2 → t.fsr = s.fsr ||| 0b001#3) ∧
  (t.status = 0b10#2 → t.fsr = s.fsr ||| 0b010#3) ∧ (t.status = 0b11#2 → t.fsr = s.fsr ||| 0b100#3)

theorem fsrFollowsStatus_of_ok {s t : State} (hstatus : t.status = statusOk) (hfsr : t.fsr = s.fsr) :
    s.FsrFollowsStatus t := by
  rw [State.FsrFollowsStatus, hstatus]
  exact ⟨fun _ => hfsr, fun h => absurd h (by decide), fun h => absurd h (by decide), fun h => absurd h (by decide)⟩

theorem raise_fsrFollowsStatus (s : State) (k : CmdFault) : s.FsrFollowsStatus (raise k s) := by
  cases k <;> simp [State.FsrFollowsStatus, CmdFault.status, CmdFault.sticky]

/-- Settles O23: a command that ends with a result has STATUS = OK and leaves FSR; a fault sets the bit of its code. -/
theorem completionWritesStatusAndItsFaultBit : Obligations.CompletionWritesStatusAndItsFaultBit := by
  intro i s t h
  cases exec_completesTo h with
  | cres a v => exact ⟨rfl, rfl, fsrFollowsStatus_of_ok rfl rfl⟩
  | cc a b flags => exact ⟨rfl, rfl, fsrFollowsStatus_of_ok rfl rfl⟩
  | nowhere => exact ⟨rfl, rfl, raise_fsrFollowsStatus s _⟩
  | res _ v => exact ⟨rfl, rfl, fsrFollowsStatus_of_ok rfl rfl⟩
  | fault _ k => exact ⟨rfl, rfl, raise_fsrFollowsStatus s k⟩

/-- Settles O24: none of the ten commands has a branch that raises a fault. -/
theorem overflowIsNeverAFault : Obligations.OverflowIsNeverAFault := by
  intro s a b c i hi
  simp only [List.mem_cons, List.not_mem_nil, or_false] at hi
  rcases hi with rfl | rfl | rfl | rfl | rfl | rfl | rfl | rfl | rfl | rfl <;> exact ⟨_, rfl, rfl, rfl⟩

/-! ## What the host may read -/

theorem hostRes_of_fault {t : State} (h : t.status ≠ statusOk) : hostRes t = none := by
  simp [hostRes, h]

/-- While RVALID is 0 no response register may be read (R154). -/
theorem host_reads_nothing {t : State} (h : t.rvalid = false) :
    hostStatus t = none ∧ hostRes t = none ∧ hostCres t = none ∧ hostCc t = none := by
  simp [hostStatus, hostRes, hostCres, hostCc, h]

/-- Settles O26, by the five ways to complete, each of which marks what it wrote as specified; an accept clears
RVALID and leaves FSR. -/
theorem hostReadsOnlySpecifiedResponses : Obligations.HostReadsOnlySpecifiedResponses := by
  refine ⟨fun i s t h => ?completion, fun s t hrst hbusy hvalid h => ?accepted⟩
  case completion =>
    cases exec_completesTo h with
    | cres a v =>
      exact ⟨rfl, fun hs => absurd rfl hs, fun _ hne => absurd rfl (hne a), fun _ => rfl, by simp⟩
    | cc a b flags =>
      exact ⟨rfl, fun hs => absurd rfl hs, fun _ _ hne => absurd rfl (hne a b), by simp, fun _ => rfl⟩
    | nowhere =>
      exact ⟨rfl, hostRes_of_fault, fun hok => absurd hok (CmdFault.status_ne_ok .illegalOp), by simp, by simp⟩
    | res _ v hconv hcmp => exact ⟨rfl, fun hs => absurd rfl hs, fun _ _ _ => rfl, by simp [hconv], by simp [hcmp]⟩
    | fault _ k _ hconv hcmp =>
      exact ⟨rfl, hostRes_of_fault, fun hok => absurd hok k.status_ne_ok, by simp [hconv], by simp [hcmp]⟩
  case accepted =>
    obtain rfl := Host.Outcome.next.inj ((step_of_accept (edge_accept hrst hbusy hvalid)).symm.trans h)
    obtain ⟨hstatus, hres, hcres, hcc⟩ := host_reads_nothing (accept_rvalid s.ports.cmd s.sampled)
    exact ⟨hstatus, hres, hcres, hcc, rfl⟩

end Sys2Proof.Machine

/-! # Runs: latency, and the refinement of the untimed model (R12, R45, R153 to R157) -/

namespace Sys2Proof.Machine

open Sys2Proof

/-! ## One accepted command -/

/-- An idle unit to which `k` is presented, the samples `rest` after it. -/
def State.presented (s : State) (k : Cmd) (rest : List PortSample) : State :=
  { s with inputs := ⟨false, true, k⟩ :: rest }

/-- LAT - 1 of the command `k` accepted at `s` (log 6). -/
def State.waits (s : State) (k : Cmd) : Nat := Config.extraEdges s.cfg (k.onPorts s.cfg.src) s.draws

/-- The command in flight after the accept edge and `m` waiting edges. -/
def State.inFlight (s : State) (k : Cmd) (rest : List PortSample) (m : Nat) : State :=
  { accept k s with remaining := s.waits k - m, inputs := rest.drop m }

theorem presented_edge {s : State} (hbusy : s.busy = false) (k : Cmd) (rest : List PortSample) :
    (s.presented k rest).edge = .accept k := edge_accept rfl hbusy rfl

theorem step_presented {s : State} (hbusy : s.busy = false) (k : Cmd) (rest : List PortSample) :
    step (s.presented k rest) = .next (s.inFlight k rest 0) := step_of_accept (presented_edge hbusy k rest)

theorem no_reset_of_drop {l : List PortSample} (h : ∀ p ∈ l, p.rst = false) (m : Nat) : ∀ p ∈ l.drop m, p.rst = false :=
  fun p hp => h p (List.mem_of_mem_drop hp)

/-- The accept edge and `m` of the waiting edges. -/
theorem run_presented {s : State} (hbusy : s.busy = false) (k : Cmd) {rest : List PortSample}
    (hrst : ∀ p ∈ rest, p.rst = false) {m : Nat} (hm : m ≤ s.waits k) :
    Host.Core.run Sys2Proof.core (m + 1) (s.presented k rest) = .next (s.inFlight k rest m) := by
  rw [run_of_step (step_presented hbusy k rest), run_wait m _ rfl hrst hm]
  rfl

/-- The completion edge of `k` is exec(s, k) of R45. -/
theorem step_inFlight (s : State) (k : Cmd) {rest : List PortSample} (hrst : ∀ p ∈ rest, p.rst = false) :
    step (s.inFlight k rest (s.waits k)) = execCommand k { s with inputs := rest.drop (s.waits k + 1) } := by
  have hports : (s.inFlight k rest (s.waits k)).ports.rst = false := head_not_reset (no_reset_of_drop hrst _)
  have hlast : (s.inFlight k rest (s.waits k)).remaining = 0 := Nat.sub_self _
  rw [step_complete hports rfl hlast]
  simp [State.inFlight, State.sampled, execCommand, acceptedAt, accept]

/-- The whole run of an accepted command: LAT + 1 edges, LAT = `waits` + 1. -/
theorem run_command {s : State} (hbusy : s.busy = false) (k : Cmd) {rest : List PortSample}
    (hrst : ∀ p ∈ rest, p.rst = false) :
    Host.Core.run Sys2Proof.core (s.waits k + 1 + 1) (s.presented k rest) =
      execCommand k { s with inputs := rest.drop (s.waits k + 1) } := by
  rw [run_add _ 1 (run_presented hbusy k hrst le_rfl), run_one, step_inFlight s k hrst]

/-- Settles O19: LAT is the drawn count of waiting edges and one more. -/
theorem acceptedCommandCompletesAfterItsLatency : Obligations.AcceptedCommandCompletesAfterItsLatency := by
  intro s k rest hbusy hrst
  refine ⟨s.waits k + 1, Nat.le_add_left _ _, run_command hbusy k hrst, fun m hm hle => ?_⟩
  obtain ⟨n, rfl⟩ := Nat.exists_eq_add_of_le' hm
  exact ⟨s.inFlight k rest n, run_presented hbusy k hrst (Nat.le_of_add_le_add_right hle), rfl, rfl, rfl⟩

/-! ## The untimed model -/

theorem execCommands_cons_of_next {k : Cmd} {s t : State} (h : execCommand k s = .next t) (ks : List Cmd) :
    execCommands (k :: ks) s = execCommands ks t := by
  simp only [execCommands, h]

theorem execCommands_append_of_next {ks : List Cmd} {s t : State} (h : execCommands ks s = .next t) (ks' : List Cmd) :
    execCommands (ks ++ ks') s = execCommands ks' t := by
  induction ks generalizing s with
  | nil => rw [List.nil_append, Host.Outcome.next.inj h]
  | cons k ks ih =>
    obtain ⟨u, hu, -⟩ := exec_completes (decodeCmd (k.onPorts s.cfg.src)) (acceptedAt k s)
    rw [execCommands_cons_of_next hu] at h
    rw [List.cons_append, execCommands_cons_of_next hu, ih h]

theorem execCommands_singleton (k : Cmd) (s : State) : execCommands [k] s = execCommand k s := by
  obtain ⟨u, hu, -⟩ := exec_completes (decodeCmd (k.onPorts s.cfg.src)) (acceptedAt k s)
  exact (execCommands_cons_of_next hu []).trans hu.symm

/-- exec(s, k) completes, for every future host with the same response, and with the configuration of `s`. -/
theorem execCommand_next (k : Cmd) (s : State) : ∃ u : State, u.busy = false ∧ u.cfg = s.cfg ∧
    ∀ l, execCommand k { s with inputs := l } = .next { u with inputs := l } := by
  obtain ⟨u, hu, hc⟩ := exec_completes (decodeCmd (k.onPorts s.cfg.src)) (acceptedAt k s)
  obtain ⟨hidle, -, -⟩ := hc.protocol
  refine ⟨u, hidle, hc.cfg_eq, fun l => ?_⟩
  obtain ⟨u', hu', hl⟩ := exec_with_inputs (decodeCmd (k.onPorts s.cfg.src)) (acceptedAt k s) l
  obtain rfl : u = u' := Host.Outcome.next.inj (hu.symm.trans hu')
  exact hl

/-! ## What is in flight, and the commands before it -/

/-- The untimed model takes `s` to `u` by the commands `ks`, whatever the host presents later. -/
def Reaches (s : State) (ks : List Cmd) (u : State) : Prop :=
  u.cfg = s.cfg ∧ ∀ l, execCommands ks { s with inputs := l } = .next { u with inputs := l }

/-- The simulation relation (log 7): after the commands `ks` were accepted from `s` on, the edge machine is idle in the
state the untimed model reaches by them, or the last of them is in flight from the state reached by those before. -/
inductive Tracks (s : State) : List Cmd → State → Prop where
  | idle {ks : List Cmd} {t : State} (hbusy : t.busy = false) (h : Reaches s ks t) : Tracks s ks t
  | flying {ks : List Cmd} {k : Cmd} {u : State} (n : Nat) (l : List PortSample) (h : Reaches s ks u) :
      Tracks s (ks ++ [k]) { accept k u with remaining := n, inputs := l }

theorem Reaches.snoc {s u u' : State} {ks : List Cmd} {k : Cmd} (h : Reaches s ks u) (hcfg : u'.cfg = u.cfg)
    (hk : ∀ l, execCommand k { u with inputs := l } = .next { u' with inputs := l }) : Reaches s (ks ++ [k]) u' := by
  obtain ⟨hu, hks⟩ := h
  refine ⟨hcfg.trans hu, fun l => ?_⟩
  rw [execCommands_append_of_next (hks l), execCommands_singleton, hk l]

theorem Reaches.with_inputs {s u : State} {ks : List Cmd} (h : Reaches s ks u) (l : List PortSample) :
    Reaches s ks { u with inputs := l } := h

/-- The commuting diagram of one edge. -/
theorem Tracks.step {s t t' : State} {ks : List Cmd} (h : Tracks s ks t) (hrst : t.ports.rst = false)
    (hstep : step t = .next t') : Tracks s (ks ++ t.accepted.toList) t' := by
  cases h with
  | idle hbusy hr =>
    cases hvalid : t.ports.cmdValid with
    | true =>
      have hedge := edge_accept hrst hbusy hvalid
      obtain rfl := Host.Outcome.next.inj ((step_of_accept hedge).symm.trans hstep)
      rw [accepted_of_edge hedge]
      exact .flying _ _ hr
    | false =>
      obtain rfl := Host.Outcome.next.inj ((step_of_idle (edge_idle hrst hbusy hvalid)).symm.trans hstep)
      rw [accepted_of_nothing_presented hvalid, Option.toList_none, List.append_nil]
      exact .idle hbusy hr
  | @flying ks k u n l hr =>
    rw [accepted_of_busy rfl, Option.toList_none, List.append_nil]
    by_cases hlast : n = 0
    · subst hlast
      obtain ⟨u', hidle, hcfg, hk⟩ := execCommand_next k u
      have hcomplete := (step_complete hrst rfl rfl).symm.trans hstep
      obtain rfl := Host.Outcome.next.inj ((hk l.tail).symm.trans hcomplete)
      exact .idle hidle ((hr.snoc hcfg hk).with_inputs _)
    · obtain rfl := Host.Outcome.next.inj ((step_of_wait (edge_wait hrst rfl hlast)).symm.trans hstep)
      exact .flying _ _ hr

/-- Each edge consumes one sample of the host. -/
theorem step_inputs {s t : State} (h : step s = .next t) : t.inputs = s.inputs.tail := by
  rcases step_inversion h with ⟨-, rfl⟩ | ⟨-, -, -, rfl⟩ | ⟨-, -, -, rfl⟩ | ⟨-, -, -, hexec, -⟩ | ⟨-, -, -, rfl⟩
  case inr.inr.inr.inl =>
    obtain ⟨-, -, -, -, -, hinputs, -⟩ := onlyTheDestinationIsWritten _ _ _ hexec
    exact hinputs
  all_goals rfl

/-- The diagram for a run, by induction on the number of edges. -/
theorem Tracks.run {s t u : State} {ks : List Cmd} (n : Nat) (h : Tracks s ks t) (hrst : ∀ p ∈ t.inputs, p.rst = false)
    (hrun : Host.Core.run Sys2Proof.core n t = .next u) : Tracks s (ks ++ acceptedDuring n t) u := by
  induction n generalizing t ks with
  | zero =>
    obtain rfl : t = u := Host.Outcome.next.inj hrun
    rwa [acceptedDuring, List.append_nil]
  | succ n ih =>
    obtain ⟨t', ht', -⟩ := step_cases t
    rw [run_of_step ht'] at hrun
    rw [acceptedDuring_of_step ht', ← List.append_assoc]
    refine ih (h.step (head_not_reset hrst) ht') (fun p hp => ?_) hrun
    rw [step_inputs ht'] at hp
    exact hrst p (List.mem_of_mem_tail hp)

/-! ## Some host presents any list of commands -/

theorem acceptedDuring_append {m : Nat} {s t : State} (h : Host.Core.run Sys2Proof.core m s = .next t) (n : Nat) :
    acceptedDuring (m + n) s = acceptedDuring m s ++ acceptedDuring n t := by
  induction m generalizing s with
  | zero =>
    obtain rfl : s = t := Host.Outcome.next.inj h
    rw [Nat.zero_add, acceptedDuring, List.nil_append]
  | succ m ih =>
    obtain ⟨u, hu, -⟩ := step_cases s
    rw [run_of_step hu] at h
    rw [Nat.succ_add, acceptedDuring_of_step hu, acceptedDuring_of_step hu, ih h, List.append_assoc]

/-- Nothing is accepted while a command is in flight, its completion edge included (R49). -/
theorem acceptedDuring_of_busy {n : Nat} {s : State} (hbusy : s.busy = true) (hrst : ∀ p ∈ s.inputs, p.rst = false)
    (hn : n ≤ s.remaining + 1) : acceptedDuring n s = [] := by
  induction n generalizing s with
  | zero => rfl
  | succ n ih =>
    obtain ⟨t, ht, -⟩ := step_cases s
    rw [acceptedDuring_of_step ht, accepted_of_busy hbusy, Option.toList_none, List.nil_append]
    by_cases hlast : s.remaining = 0
    · obtain rfl : n = 0 := by omega
      rfl
    · obtain rfl := Host.Outcome.next.inj ((step_of_wait (edge_wait (head_not_reset hrst) hbusy hlast)).symm.trans ht)
      exact ih hbusy (fun p hp => hrst p (List.mem_of_mem_tail hp)) (by simp; omega)

theorem acceptedDuring_command {s : State} (hbusy : s.busy = false) (k : Cmd) {rest : List PortSample}
    (hrst : ∀ p ∈ rest, p.rst = false) : acceptedDuring (s.waits k + 1 + 1) (s.presented k rest) = [k] := by
  have hflight : acceptedDuring (s.waits k + 1) (s.inFlight k rest 0) = [] := acceptedDuring_of_busy rfl hrst le_rfl
  rw [acceptedDuring_of_step (step_presented hbusy k rest), accepted_of_edge (presented_edge hbusy k rest), hflight]
  rfl

/-- The host that presents each command of a list as soon as the unit is ready, and idles while it is busy. -/
theorem exists_host (ks : List Cmd) (s : State) (hbusy : s.busy = false) :
    ∃ (n : Nat) (samples : List PortSample), (∀ p ∈ samples, p.rst = false) ∧
      (samples.filter (·.cmdValid)).map (·.cmd) = ks ∧
      acceptedDuring n { s with inputs := samples } = ks ∧
      Host.Core.run Sys2Proof.core n { s with inputs := samples } = execCommands ks { s with inputs := [] } := by
  induction ks generalizing s with
  | nil => exact ⟨0, [], by simp, rfl, rfl, rfl⟩
  | cons k ks ih =>
    obtain ⟨u, hidle, -, hu⟩ := execCommand_next k s
    obtain ⟨n, samples, hrst, hpresented, haccepted, hrun⟩ := ih u hidle
    have hrest : ∀ p ∈ List.replicate (s.waits k + 1) PortSample.idle ++ samples, p.rst = false := by
      intro p hp
      rcases List.mem_append.1 hp with hp | hp
      · rw [List.eq_of_mem_replicate hp]; rfl
      · exact hrst p hp
    have hcommand := run_command hbusy k hrest
    rw [List.drop_left' List.length_replicate, hu samples] at hcommand
    refine ⟨s.waits k + 1 + 1 + n, ⟨false, true, k⟩ :: (List.replicate (s.waits k + 1) .idle ++ samples),
      ?_, ?_, ?_, ?_⟩
    · exact List.forall_mem_cons.2 ⟨rfl, hrest⟩
    · simp [List.filter_append, PortSample.idle, hpresented]
    · exact (acceptedDuring_append hcommand n).trans (by rw [acceptedDuring_command hbusy k hrest, haccepted]; rfl)
    · rw [execCommands_cons_of_next (hu []), ← hrun]
      exact run_add _ n hcommand

/-- Settles O20: a run without reset tracks the untimed model from the state it starts in, and the host that waits for
the unit has every list of commands accepted. -/
theorem commandSequenceTakesEffectInOrder : Obligations.CommandSequenceTakesEffectInOrder := by
  refine ⟨fun n s t hbusy hrst hrun => ?_, exists_host⟩
  have htracks : Tracks s ([] ++ acceptedDuring n s) t := Tracks.run n (.idle hbusy ⟨rfl, fun _ => rfl⟩) hrst hrun
  rw [List.nil_append] at htracks
  generalize acceptedDuring n s = accepted at htracks
  cases htracks with
  | idle hidle hr =>
    obtain ⟨-, hks⟩ := hr
    exact ⟨fun _ => hks t.inputs, fun hb => absurd (hidle.symm.trans hb) Bool.false_ne_true⟩
  | @flying ks k u m l hr =>
    obtain ⟨hcfg, hks⟩ := hr
    exact ⟨nofun, fun _ => ⟨ks, k, _, rfl, hks l, congrArg (fun c : Cfg => k.onPorts c.src) hcfg, rfl, rfl⟩⟩

end Sys2Proof.Machine

/-! # CONV between equal formats, SUB, ABS, and the error of MUL (R70, R81, R83, R92) -/

namespace Sys2Proof

theorem pow2_zero : pow2 0 = 1 := rfl

theorem Format.pattern_value_sub (f : Format) (a b : Word) :
    f.pattern (f.value a - f.value b) = (a.setWidth f.w - b.setWidth f.w).setWidth 32 := by
  rw [sub_eq_add_neg, Format.pattern, BitVec.ofInt_add, BitVec.ofInt_neg, f.ofInt_value, f.ofInt_value,
    BitVec.sub_eq_add_neg]

/-- The two integers of magnitude 2^(W-1) have one pattern (D16). -/
theorem Format.pattern_neg_half (f : Format) : f.pattern (-pow2 (f.w - 1)) = f.pattern (pow2 (f.w - 1)) := by
  have hsplit : pow2 (f.w - 1) = -pow2 (f.w - 1) + pow2 f.w := by rw [f.pow2_w]; ring
  rw [← f.wrap_eq_pattern, ← f.wrap_eq_pattern, f.wrap_eq_iff]
  conv_rhs => rw [hsplit, Int.add_emod_right]

/-- What a floor division by a power of two loses (R92). -/
theorem sub_fdiv_mul_pow2 (z : Int) (k : Nat) :
    0 ≤ z - Int.fdiv z (pow2 k) * pow2 k ∧ z - Int.fdiv z (pow2 k) * pow2 k < pow2 k := by
  have hpos := pow2_pos k
  rw [Int.fdiv_eq_ediv_of_nonneg z hpos.le, mul_comm, ← Int.emod_def]
  exact ⟨Int.emod_nonneg z hpos.ne', Int.emod_lt_of_pos z hpos⟩

end Sys2Proof

namespace Sys2Proof.Machine

open Sys2Proof

/-- A result is determined by the state it leaves. -/
theorem withResult_inj {s : State} {v w : Word} (h : s.withResult v = s.withResult w) : v = w := congrArg State.res h

/-- The same of the whole completion. -/
theorem next_withResult_inj {s : State} {v w : Word}
    (h : (Host.Outcome.next (s.withResult v) : Host.Outcome State Fault Refusal) = .next (s.withResult w)) : v = w :=
  withResult_inj (Host.Outcome.next.inj h)

/-- Settles O31: the shift is by no bits, and a fitting value wraps to itself. -/
theorem convBetweenEqualFormatsIsIdentity : Obligations.ConvBetweenEqualFormatsIsIdentity := by
  intro s a ha hformat
  rw [convShiftsThenCasts s a ha, hformat, if_pos le_rfl, Nat.sub_self, pow2_zero, mul_one, Format.pattern_value ha]

/-- Settles O36: either reading is congruent to the pattern, so the exact difference wraps to the W-bit difference. -/
theorem subIsTheWrappedDifference : Obligations.SubIsTheWrappedDifference := fun s a b ha hb =>
  ⟨exec_sub_eq_pattern s ha hb, s.cfg.src.pattern_value_sub a b⟩

/-- Settles O38, by the sign for which the magnitude is the value itself, and at the smallest value by the wrap. -/
theorem absIsTheWrappedMagnitude : Obligations.AbsIsTheWrappedMagnitude := by
  intro s a ha
  refine ⟨?value, fun hnonneg => ?nonnegative, fun hmin => ?smallest⟩
  case value =>
    rw [exec_abs, finishRes_eq_withResult, absValue, Format.wrap_eq_pattern, Format.ival_eq_value ha, Int.abs_eq_natAbs]
  case nonnegative => rw [abs_of_nonneg hnonneg, Format.pattern_value ha]
  case smallest =>
    rw [hmin, abs_neg, abs_of_pos (pow2_pos _), ← Format.pattern_neg_half, ← hmin, Format.pattern_value ha]

/-- A MUL whose floor fits reads back as the floor. -/
theorem value_of_exec_mul {s : State} {a b v : Word} (ha : s.cfg.src.fits a = true) (hb : s.cfg.src.fits b = true)
    (hfit : s.cfg.src.holds (Int.fdiv (s.cfg.src.value a * s.cfg.src.value b) (pow2 s.cfg.src.frac)))
    (h : exec (.mul a b) s = .next (s.withResult v)) :
    s.cfg.src.value v = Int.fdiv (s.cfg.src.value a * s.cfg.src.value b) (pow2 s.cfg.src.frac) := by
  rw [mulFloorsTheExactProduct s a b ha hb] at h
  rw [← next_withResult_inj h, Format.value_pattern hfit]

/-- Settles O41: the result is the floor, and a floor division loses less than the divisor. -/
theorem mulErrorIsBelowOneRawUnit : Obligations.MulErrorIsBelowOneRawUnit := by
  intro s a b v ha hb hfit h
  rw [value_of_exec_mul ha hb hfit h]
  exact sub_fdiv_mul_pow2 _ _

end Sys2Proof.Machine

/-! # The two division modes (R96, R97, R99, R100) -/

namespace Sys2Proof

/-- What R95, R96 and R99 say of the quotients `q` of DIVF and `r` of DIVR of `n` by `d`, before the wrap. -/
structure DivisionModes (n d q r : Int) : Prop where
  not_farther   : |q * d| ≤ |n|
  below_one     : |n - q * d| < |d|
  nearest       : 2 * |n - r * d| ≤ |d|
  tie_away      : 2 * |n - r * d| = |d| → |n| < |r * d|
  apart_by_one  : |r - q| ≤ 1
  fast_is_inner : |q| ≤ |r|

/-- Both quotients are odd in the dividend. -/
theorem DivisionModes.neg_dividend {n d q r : Int} (h : DivisionModes n d q r) : DivisionModes (-n) d (-q) (-r) := by
  obtain ⟨h1, h2, h3, h4, h5, h6⟩ := h
  have hq : -n - -(q * d) = -(n - q * d) := by ring
  have hr : -n - -(r * d) = -(n - r * d) := by ring
  have hrq : -r - -q = -(r - q) := by ring
  constructor <;> simpa only [neg_mul, hq, hr, hrq, abs_neg]

/-- Both quotients are odd in the divisor. -/
theorem DivisionModes.neg_divisor {n d q r : Int} (h : DivisionModes n d q r) : DivisionModes n (-d) (-q) (-r) := by
  obtain ⟨h1, h2, h3, h4, h5, h6⟩ := h
  have hrq : -r - -q = -(r - q) := by ring
  constructor <;> simpa only [hrq, neg_mul_neg, abs_neg]

/-- The two modes for a dividend that is not negative and a positive divisor, `n + d / 2` being what DIVR divides. -/
theorem divisionModes_of_nonneg {n d : Int} (hn : 0 ≤ n) (hd : 0 < d) :
    DivisionModes n d (n / d) ((n + d / 2) / d) := by
  have hq0 : 0 ≤ n / d := Int.ediv_nonneg hn hd.le
  have hqr : n / d ≤ (n + d / 2) / d := Int.ediv_le_ediv hd (by omega)
  have hrq : (n + d / 2) / d ≤ n / d + 1 := by
    have hstep : (n + 1 * d) / d = n / d + 1 := Int.add_mul_ediv_right n 1 hd.ne'
    rw [← hstep]
    exact Int.ediv_le_ediv hd (by omega)
  have hq_le : n / d * d ≤ n := Int.ediv_mul_le n hd.ne'
  have hq_lt : n < (n / d + 1) * d := Int.lt_ediv_add_one_mul_self n hd
  have hr_le : (n + d / 2) / d * d ≤ n + d / 2 := Int.ediv_mul_le _ hd.ne'
  have hr_lt : n + d / 2 < ((n + d / 2) / d + 1) * d := Int.lt_ediv_add_one_mul_self _ hd
  generalize n / d = q at *
  generalize (n + d / 2) / d = r at *
  have hqd : 0 ≤ q * d := mul_nonneg hq0 hd.le
  have hrd : 0 ≤ r * d := mul_nonneg (hq0.trans hqr) hd.le
  rw [add_mul, one_mul] at hq_lt hr_lt
  refine ⟨?_, ?_, ?_, fun htie => ?_, ?_, ?_⟩
  · rwa [abs_of_nonneg hqd, abs_of_nonneg hn]
  · rw [abs_of_nonneg (by omega), abs_of_pos hd]
    omega
  · have := abs_le.2 (⟨by omega, by omega⟩ : -(d / 2) ≤ n - r * d ∧ n - r * d ≤ d / 2)
    rw [abs_of_pos hd]
    omega
  · rw [abs_of_nonneg hn, abs_of_nonneg hrd]
    rcases abs_cases (n - r * d) with ⟨h, -⟩ | ⟨h, -⟩ <;> rw [h, abs_of_pos hd] at htie <;> omega
  · exact abs_le.2 ⟨by omega, by omega⟩
  · rwa [abs_of_nonneg hq0, abs_of_nonneg (hq0.trans hqr)]

end Sys2Proof

namespace Sys2Proof.Machine

open Sys2Proof

/-! ## The quotients of the model -/

theorem fastQuotient_of_nonneg {n : Int} (hn : 0 ≤ n) (d : Int) : fastQuotient n d = n / d :=
  Int.tdiv_eq_ediv_of_nonneg hn

theorem fastQuotient_neg_dividend (n d : Int) : fastQuotient (-n) d = -fastQuotient n d := Int.neg_tdiv n d

theorem fastQuotient_neg_divisor (n d : Int) : fastQuotient n (-d) = -fastQuotient n d := Int.tdiv_neg n d

theorem roundedQuotient_of_nonneg {n d : Int} (hn : 0 ≤ n) (hd : 0 < d) : roundedQuotient n d = (n + d / 2) / d := by
  have hsigns : decide (n < 0) = decide (d < 0) := by simp [hn.not_gt, hd.not_gt]
  simp only [roundedQuotient, if_pos hsigns, truncDiv]
  rw [Int.tdiv_eq_ediv_of_nonneg hd.le, Int.tdiv_eq_ediv_of_nonneg (by omega)]

/-- Negating the dividend exchanges equal and opposite signs, so half the divisor goes to the other side. -/
theorem roundedQuotient_neg_dividend {n : Int} (hn : n ≠ 0) (d : Int) :
    roundedQuotient (-n) d = -roundedQuotient n d := by
  have hsigns : decide (-n < 0) = decide (d < 0) ↔ ¬decide (n < 0) = decide (d < 0) := by
    simp only [decide_eq_decide]; omega
  simp only [roundedQuotient, hsigns, truncDiv, ← Int.neg_tdiv]
  by_cases h : decide (n < 0) = decide (d < 0)
  · rw [if_neg (not_not_intro h), if_pos h, neg_add']
  · rw [if_pos h, if_neg h, neg_sub', sub_neg_eq_add]

/-- So does negating the divisor, which negates its half as well. -/
theorem roundedQuotient_neg_divisor (n : Int) {d : Int} (hd : d ≠ 0) :
    roundedQuotient n (-d) = -roundedQuotient n d := by
  have hsigns : decide (n < 0) = decide (-d < 0) ↔ ¬decide (n < 0) = decide (d < 0) := by
    simp only [decide_eq_decide]; omega
  simp only [roundedQuotient, hsigns, truncDiv, Int.neg_tdiv, Int.tdiv_neg]
  by_cases h : decide (n < 0) = decide (d < 0)
  · rw [if_neg (not_not_intro h), if_pos h, sub_neg_eq_add]
  · rw [if_pos h, if_neg h, sub_eq_add_neg]

/-- The modes of R99 for every dividend and divisor, from the non-negative ones by the two symmetries. -/
theorem divisionModes (n : Int) {d : Int} (hd : d ≠ 0) :
    DivisionModes n d (fastQuotient n d) (roundedQuotient n d) := by
  wlog hpos : 0 < d generalizing d with positive
  · have h := (positive (d := -d) (by omega) (by omega)).neg_divisor
    rwa [fastQuotient_neg_divisor, roundedQuotient_neg_divisor n hd, neg_neg, neg_neg, neg_neg] at h
  wlog hnonneg : 0 ≤ n generalizing n with nonnegative
  · have h := (nonnegative (-n) (by omega)).neg_dividend
    rwa [fastQuotient_neg_dividend, roundedQuotient_neg_dividend (by omega), neg_neg, neg_neg, neg_neg] at h
  rw [fastQuotient_of_nonneg hnonneg, roundedQuotient_of_nonneg hnonneg hpos]
  exact divisionModes_of_nonneg hnonneg hpos

/-! ## The commands -/

/-- DIVR by a divisor other than zero writes the pattern of the quotient of R96. -/
theorem exec_divr_eq_pattern (s : State) {a b : Word} (ha : s.cfg.src.fits a = true) (hb : s.cfg.src.fits b = true)
    (hd : s.cfg.src.value b ≠ 0) :
    exec (.divr a b) s = .next (s.withResult (s.cfg.src.pattern
      (roundedQuotient (s.cfg.src.value a * pow2 s.cfg.src.frac) (s.cfg.src.value b)))) := by
  rw [← Format.ival_eq_value hb] at hd ⊢
  obtain ⟨hzero, -⟩ | ⟨-, hvalue⟩ := divrValue_cases s.cfg.src a b
  · exact absurd hzero hd
  · rw [exec_divr, hvalue, conclude, finishRes_eq_withResult, Format.wrap_eq_pattern, scaledDividend_eq_value_mul ha]

/-- DIVR by zero raises DIV_BY_ZERO, whatever the dividend (R97). -/
theorem exec_divr_zero_divisor (s : State) (a : Word) {b : Word} (hb : s.cfg.src.fits b = true)
    (hd : s.cfg.src.value b = 0) : exec (.divr a b) s = .next (raise .divByZero s) := by
  rw [← Format.ival_eq_value hb] at hd
  obtain ⟨-, hvalue⟩ | ⟨hne, -⟩ := divrValue_cases s.cfg.src a b
  · rw [exec_divr, hvalue, conclude]
  · exact absurd hd hne

/-- Settles O44, by the divisor: the model's quotient is the nearest integer, ties away from zero, and a zero divisor
takes the fault entry of DIV_BY_ZERO. -/
theorem divrRoundsHalfAwayFromZero : Obligations.DivrRoundsHalfAwayFromZero := by
  intro s a b ha hb n d
  refine ⟨fun hd => ?nonzero, fun hd => ?zero⟩
  case nonzero =>
    have h := divisionModes n hd
    exact ⟨_, h.nearest, h.tie_away, exec_divr_eq_pattern s ha hb hd⟩
  case zero => exact ⟨_, exec_divr_zero_divisor s a hb hd, raise_faultEntry s rfl⟩

/-- A fitting pattern other than zero has a value other than zero. -/
theorem value_ne_zero {f : Format} {x : Word} (hx : f.fits x = true) (h : x ≠ 0) : f.value x ≠ 0 := by
  intro hv
  rw [← Format.pattern_value hx, hv, f.pattern_zero] at h
  exact h rfl

/-- Settles O45: both quotients are those of the model, before the wrap. -/
theorem theTwoDivisionModesDifferByAtMostOne : Obligations.TheTwoDivisionModesDifferByAtMostOne := by
  intro s a b ha hb hne n d
  have hd : d ≠ 0 := value_ne_zero hb hne
  have h := divisionModes n hd
  exact ⟨_, _, h.not_farther, h.below_one, h.nearest, h.apart_by_one, h.fast_is_inner,
    exec_divf_eq_pattern s ha hb hd, exec_divr_eq_pattern s ha hb hd⟩

/-- The result of a MUL fits, whatever it wraps to. -/
theorem fits_of_exec_mul {s : State} {a b p : Word} (h : exec (.mul a b) s = .next (s.withResult p)) :
    s.cfg.src.fits p = true := by
  rw [exec_mul, finishRes_eq_withResult] at h
  rw [← next_withResult_inj h]
  exact Format.wrap_fits _ _

/-- R100 on integers: `p` is at most one unit `u` per product below `a * b`, and `q` within one divisor of `p / b`. -/
theorem abs_sub_le_one_of_round_trip {a b p q u : Int} (hub : u ≤ |b|) (hp : 0 ≤ a * b - p * u)
    (hpu : a * b - p * u < u) (hq : |p * u - q * b| < |b|) : |q - a| ≤ 1 := by
  have hmul : |(q - a) * b| < 2 * |b| := by
    have hsplit : (q - a) * b = -((p * u - q * b) + (a * b - p * u)) := by ring
    rw [hsplit, abs_neg]
    have := abs_add_le (p * u - q * b) (a * b - p * u)
    rw [abs_of_nonneg hp] at this
    omega
  rw [abs_mul] at hmul
  have := lt_of_mul_lt_mul_right hmul (abs_nonneg b)
  omega

/-- Settles O46: MUL loses less than one unit of 2^F, which is at most the divisor, and DIVF less than one divisor. -/
theorem multiplyThenDivideReturnsWithinOneUnit : Obligations.MultiplyThenDivideReturnsWithinOneUnit := by
  intro s a b p q ha hb hone hmul hdiv hproduct hquotient
  have hd : s.cfg.src.value b ≠ 0 := fun h => by
    rw [h, abs_zero] at hone
    exact absurd hone (pow2_pos _).not_ge
  have hp := value_of_exec_mul ha hb hproduct hmul
  rw [exec_divf_eq_pattern s (fits_of_exec_mul hmul) hb hd] at hdiv
  rw [← next_withResult_inj hdiv, truncDiv, Format.value_pattern hquotient]
  obtain ⟨hlow, hhigh⟩ := sub_fdiv_mul_pow2 (s.cfg.src.value a * s.cfg.src.value b) s.cfg.src.frac
  rw [← hp] at hlow hhigh
  exact abs_sub_le_one_of_round_trip hone hlow hhigh (divisionModes _ hd).below_one

end Sys2Proof.Machine

/-! # The intermediate type: MUL, DIVF and DIVR in IW-bit arithmetic (R8, R91, R98) -/

namespace Sys2Proof

/-! ## IW-bit words as integers -/

/-- The integer an IW-bit word stands for, in the signedness of the storage type. -/
def Format.wideValue (f : Format) (x : BitVec f.intermediateWidth) : Int :=
  if f.signed then x.toInt else (x.toNat : Int)

/-- `z` is the value of some IW-bit word: no overflow in the intermediate type. -/
abbrev Format.wideHolds (f : Format) (z : Int) : Prop :=
  if f.signed then -pow2 (f.intermediateWidth - 1) ≤ z ∧ z < pow2 (f.intermediateWidth - 1)
  else 0 ≤ z ∧ z < pow2 f.intermediateWidth

theorem Format.intermediateWidth_eq (f : Format) : f.intermediateWidth = if f.w = 32 then 64 else 32 := by
  unfold Format.intermediateWidth
  rcases f.width.bits_cases with h | h | h <;> simp [Format.w, h]

theorem Format.two_mul_w_le (f : Format) : 2 * f.w ≤ f.intermediateWidth := by
  unfold Format.intermediateWidth
  rcases f.width.bits_cases with h | h | h <;> simp [Format.w, h]

theorem Format.wideValue_widen (f : Format) (x : Word) : f.wideValue (f.widen x) = f.value x := by
  by_cases hs : f.signed = true
  · rw [Format.wideValue, if_pos hs, Format.widen_toInt hs]
  · rw [Format.wideValue, if_neg hs, Format.widen_toNat (Bool.eq_false_iff.2 hs)]

theorem Format.ofInt_wideValue (f : Format) (x : BitVec f.intermediateWidth) : BitVec.ofInt _ (f.wideValue x) = x := by
  by_cases hs : f.signed = true
  · rw [Format.wideValue, if_pos hs, BitVec.ofInt_toInt]
  · rw [Format.wideValue, if_neg hs, BitVec.ofInt_natCast, BitVec.ofNat_toNat, BitVec.setWidth_eq]

theorem Format.narrow_eq_pattern (f : Format) (x : BitVec f.intermediateWidth) :
    f.narrow x = f.pattern (f.wideValue x) := by
  rw [← f.narrow_ofInt, f.ofInt_wideValue]

/-- An integer the intermediate type holds is read back unchanged. -/
theorem Format.wideValue_ofInt {f : Format} {z : Int} (h : f.wideHolds z) : f.wideValue (BitVec.ofInt _ z) = z := by
  have hpos : 0 < f.intermediateWidth := by have := f.two_mul_w_le; have := f.w_pos; omega
  by_cases hs : f.signed = true
  · rw [Format.wideHolds, if_pos hs, pow2_eq] at h
    rw [Format.wideValue, if_pos hs, BitVec.toInt_ofInt_eq_self hpos h.1 h.2]
  · rw [Format.wideHolds, if_neg hs] at h
    obtain ⟨h0, hlt⟩ := h
    rw [Format.wideValue, if_neg hs, BitVec.toNat_ofInt]
    exact (Int.toNat_of_nonneg (Int.emod_nonneg _ (pow2_ne_zero _))).trans (Int.emod_eq_of_lt h0 hlt)

/-! ## The operations of the datapath on integers -/

theorem Format.mul_eq_ofInt (f : Format) (x y : BitVec f.intermediateWidth) :
    x * y = BitVec.ofInt _ (f.wideValue x * f.wideValue y) := by
  rw [BitVec.ofInt_mul, f.ofInt_wideValue, f.ofInt_wideValue]

theorem Format.add_eq_ofInt (f : Format) (x y : BitVec f.intermediateWidth) :
    x + y = BitVec.ofInt _ (f.wideValue x + f.wideValue y) := by
  rw [BitVec.ofInt_add, f.ofInt_wideValue, f.ofInt_wideValue]

theorem Format.sub_eq_ofInt (f : Format) (x y : BitVec f.intermediateWidth) :
    x - y = BitVec.ofInt _ (f.wideValue x - f.wideValue y) := by
  rw [sub_eq_add_neg (f.wideValue x), BitVec.ofInt_add, BitVec.ofInt_neg, f.ofInt_wideValue, f.ofInt_wideValue,
    BitVec.sub_eq_add_neg]

theorem Format.shiftLeft_eq_ofInt (f : Format) (x : BitVec f.intermediateWidth) (k : Nat) :
    x <<< k = BitVec.ofInt _ (f.wideValue x * pow2 k) := by
  rw [BitVec.ofInt_mul, f.ofInt_wideValue, BitVec.shiftLeft_eq_mul_twoPow, pow2, BitVec.ofInt_natCast]
  congr 1
  apply BitVec.eq_of_toNat_eq
  rw [BitVec.toNat_twoPow, BitVec.toNat_ofNat]

theorem Format.wideValue_wideShift (f : Format) (x : BitVec f.intermediateWidth) (k : Nat) :
    f.wideValue (f.wideShift x k) = Int.fdiv (f.wideValue x) (pow2 k) := by
  rw [Int.fdiv_eq_ediv_of_nonneg _ (pow2_pos k).le]
  by_cases hs : f.signed = true
  · simp only [Format.wideValue, Format.wideShift, if_pos hs]
    rw [BitVec.toInt_sshiftRight, Int.shiftRight_eq_div_pow]
    rfl
  · simp only [Format.wideValue, Format.wideShift, if_neg hs]
    rw [BitVec.toNat_ushiftRight, Nat.shiftRight_eq_div_pow]
    rfl

/-- The division of the intermediate type wraps where the quotient does not fit: the smallest value by -1. -/
theorem Format.wideDiv_eq_ofInt (f : Format) (n d : BitVec f.intermediateWidth) :
    f.wideDiv n d = BitVec.ofInt _ ((f.wideValue n).tdiv (f.wideValue d)) := by
  by_cases hs : f.signed = true
  · simp only [Format.wideValue, Format.wideDiv, if_pos hs]
    apply BitVec.eq_of_toInt_eq
    rw [BitVec.toInt_sdiv, BitVec.toInt_ofInt]
  · simp only [Format.wideValue, Format.wideDiv, if_neg hs]
    apply BitVec.eq_of_toNat_eq
    rw [← Int.ofNat_tdiv, BitVec.ofInt_natCast, BitVec.toNat_udiv, BitVec.toNat_ofNat,
      Nat.mod_eq_of_lt ((Nat.div_le_self _ _).trans_lt n.isLt)]

theorem Format.wideNegative_eq (f : Format) (x : BitVec f.intermediateWidth) :
    f.wideNegative x = decide (f.wideValue x < 0) := by
  by_cases hs : f.signed = true
  · simp only [Format.wideValue, Format.wideNegative, hs, if_true, Bool.true_and, BitVec.msb_eq_toInt]
  · simp [Format.wideValue, Format.wideNegative, hs]

/-! ## What fits the intermediate type (R91, R98) -/

theorem Format.pow2_w_sq_le (f : Format) : pow2 f.w * pow2 f.w ≤ pow2 f.intermediateWidth := by
  rw [← pow2_add, ← two_mul]
  exact pow2_mono f.two_mul_w_le

/-- 2^(IW-1) is at least 2^(2W-1). -/
theorem Format.two_mul_half_sq_le (f : Format) :
    2 * (pow2 (f.w - 1) * pow2 (f.w - 1)) ≤ pow2 (f.intermediateWidth - 1) := by
  have hw := f.two_mul_w_le
  have hpos := f.w_pos
  rw [← mul_assoc, ← f.pow2_w, ← pow2_add]
  exact pow2_mono (by omega)

theorem Format.wideHolds_mul {f : Format} {y z : Int} (hy : f.holds y) (hz : f.holds z) : f.wideHolds (y * z) := by
  have hhalf := pow2_pos (f.w - 1)
  unfold Format.holds at hy hz
  unfold Format.wideHolds
  by_cases hs : f.signed = true
  · simp only [if_pos hs] at hy hz ⊢
    have hroom := f.two_mul_half_sq_le
    have habs : |y * z| ≤ pow2 (f.w - 1) * pow2 (f.w - 1) := by
      rw [abs_mul]
      exact mul_le_mul (abs_le.2 ⟨hy.1, hy.2.le⟩) (abs_le.2 ⟨hz.1, hz.2.le⟩) (abs_nonneg z) hhalf.le
    have hsq : 0 < pow2 (f.w - 1) * pow2 (f.w - 1) := mul_pos hhalf hhalf
    obtain ⟨hlow, hhigh⟩ := abs_le.1 habs
    constructor <;> omega
  · simp only [if_neg hs] at hy hz ⊢
    exact ⟨mul_nonneg hy.1 hz.1, (mul_lt_mul'' hy.2 hz.2 hy.1 hz.1).trans_le f.pow2_w_sq_le⟩

theorem Format.pow2_frac_le (f : Format) : pow2 f.frac ≤ pow2 f.w := pow2_mono f.frac_le

/-- The pre-scaled dividend leaves room for one more value of the storage type, except at the smallest value and the
greatest scale. -/
theorem Format.wideHolds_scaled {f : Format} {z : Int} (hz : f.holds z) : f.wideHolds (z * pow2 f.frac) := by
  have hscale := f.pow2_frac_le
  have hfrac := pow2_pos f.frac
  have hhalf := pow2_pos (f.w - 1)
  unfold Format.holds at hz
  unfold Format.wideHolds
  by_cases hs : f.signed = true
  · simp only [if_pos hs] at hz ⊢
    have hroom := f.two_mul_half_sq_le
    rw [f.pow2_w] at hscale
    constructor <;> nlinarith
  · simp only [if_neg hs] at hz ⊢
    have hroom := f.pow2_w_sq_le
    constructor <;> nlinarith

/-- Half of a negative number, rounded toward zero, is that of its magnitude, negated. -/
theorem tdiv_two_of_neg {d : Int} (hd : d < 0) : d.tdiv 2 = -(-d / 2) := by
  rw [← Int.tdiv_eq_ediv_of_nonneg (by omega), Int.neg_tdiv, neg_neg]

/-- What DIVR divides by `d`: half the divisor is added away from zero (R96). -/
theorem rounding_dividend_eq (n d : Int) :
    (if decide (n < 0) = decide (d < 0) then n + d.tdiv 2 else n - d.tdiv 2) =
      if n < 0 then n - |d| / 2 else n + |d| / 2 := by
  rcases lt_or_ge d 0 with hd | hd
  · rw [tdiv_two_of_neg hd, abs_of_neg hd]
    rcases lt_or_ge n 0 with hn | hn
    · simp [hn, hd, sub_eq_add_neg]
    · simp [hn.not_gt, hd]
  · rw [Int.tdiv_eq_ediv_of_nonneg hd, abs_of_nonneg hd]
    rcases lt_or_ge n 0 with hn | hn
    · simp [hn, hd.not_gt]
    · simp [hn.not_gt, hd.not_gt]

/-- At the negative end the room of R98 is needed: below `z * 2^F` there is half a divisor more unless `z` is the
smallest value, the scale the greatest, IW just 2W and the divisor's half not 0. -/
theorem Format.wide_lower_bound {f : Format} {z d : Int} (hz : -pow2 (f.w - 1) ≤ z) (hneg : z < 0)
    (hd : |d| ≤ pow2 (f.w - 1)) (hroom : ¬(f.frac = f.w ∧ f.w ≠ 8 ∧ z = -pow2 (f.w - 1) ∧ 2 ≤ |d|)) :
    -pow2 (f.intermediateWidth - 1) ≤ z * pow2 f.frac - |d| / 2 := by
  have hfit := f.two_mul_half_sq_le
  have hscale := f.pow2_frac_le
  have hfrac := pow2_pos f.frac
  have hhalf := pow2_pos (f.w - 1)
  rw [f.pow2_w] at hscale
  by_cases hF : f.frac = f.w
  case neg =>
    have hle : pow2 f.frac ≤ pow2 (f.w - 1) := pow2_mono (by have : f.frac ≤ f.w := f.frac_le; omega)
    have hsmall : |d| / 2 ≤ pow2 (f.w - 1) * pow2 (f.w - 1) := by nlinarith [Int.ediv_le_self 2 (abs_nonneg d)]
    nlinarith
  by_cases h8 : f.w = 8
  case pos =>
    have hIW : f.intermediateWidth = 32 := by simp [f.intermediateWidth_eq, h8]
    simp only [hF, h8, hIW, pow2_eq] at hz hd ⊢
    omega
  by_cases hz0 : z = -pow2 (f.w - 1)
  case neg =>
    have hnext : -pow2 (f.w - 1) + 1 ≤ z := by omega
    have hsmall : |d| / 2 ≤ 2 * pow2 (f.w - 1) := by omega
    nlinarith
  have hzero : |d| / 2 = 0 := by have := abs_nonneg d; have := fun h => hroom ⟨hF, h8, hz0, h⟩; omega
  rw [hzero]
  nlinarith

/-- R98: what DIVR divides fits the intermediate type, apart from the smallest value by a divisor of magnitude 2 or more
at the greatest scale, where IW leaves no spare bit. -/
theorem Format.wideHolds_rounding_dividend {f : Format} {z d : Int} (hz : f.holds z) (hd : f.holds d)
    (hroom : ¬(f.signed = true ∧ f.frac = f.w ∧ f.w ≠ 8 ∧ z = -pow2 (f.w - 1) ∧ 2 ≤ |d|)) :
    f.wideHolds (if z * pow2 f.frac < 0 then z * pow2 f.frac - |d| / 2 else z * pow2 f.frac + |d| / 2) := by
  have hscale := f.pow2_frac_le
  have hfrac := pow2_pos f.frac
  have hhalf := pow2_pos (f.w - 1)
  have hd0 := abs_nonneg d
  have hsign : z * pow2 f.frac < 0 ↔ z < 0 := by rw [mul_neg_iff]; constructor <;> intro h <;> omega
  simp only [hsign]
  unfold Format.holds at hz hd
  unfold Format.wideHolds
  by_cases hs : f.signed = true
  · simp only [if_pos hs] at hz hd ⊢
    have hfit := f.two_mul_half_sq_le
    have hdle : |d| ≤ pow2 (f.w - 1) := abs_le.2 ⟨hd.1, hd.2.le⟩
    rcases lt_or_ge z 0 with hneg | hnonneg
    · have hprod : z * pow2 f.frac < 0 := hsign.2 hneg
      rw [if_pos hneg]
      exact ⟨Format.wide_lower_bound hz.1 hneg hdle fun h => hroom ⟨hs, h⟩, by
        have := pow2_pos (f.intermediateWidth - 1); omega⟩
    · rw [if_neg hnonneg.not_gt]
      have hprod : 0 ≤ z * pow2 f.frac := mul_nonneg hnonneg hfrac.le
      rw [f.pow2_w] at hscale
      have hhigh : z * pow2 f.frac ≤ (pow2 (f.w - 1) - 1) * (2 * pow2 (f.w - 1)) :=
        mul_le_mul (by omega) hscale hfrac.le (by omega)
      have hsmall : |d| / 2 < 2 * pow2 (f.w - 1) := by omega
      exact ⟨by have := pow2_pos (f.intermediateWidth - 1); omega, by nlinarith⟩
  · simp only [if_neg hs] at hz hd ⊢
    have hfit := f.pow2_w_sq_le
    rw [if_neg hz.1.not_gt, abs_of_nonneg hd.1]
    have hprod : 0 ≤ z * pow2 f.frac := mul_nonneg hz.1 hfrac.le
    have hhigh : z * pow2 f.frac ≤ (pow2 f.w - 1) * pow2 f.w :=
      mul_le_mul (by omega) hscale hfrac.le (by omega)
    exact ⟨by omega, by nlinarith [show d / 2 < pow2 f.w by omega]⟩

end Sys2Proof

namespace Sys2Proof.Machine

open Sys2Proof

/-- The intermediate type holds every value of the storage type. -/
theorem wideHolds_of_holds {f : Format} {z : Int} (h : f.holds z) : f.wideHolds z := by
  have hle := f.w_le_intermediateWidth
  have hsigned : pow2 (f.w - 1) ≤ pow2 (f.intermediateWidth - 1) := pow2_mono (Nat.sub_le_sub_right hle 1)
  have hunsigned : pow2 f.w ≤ pow2 f.intermediateWidth := pow2_mono hle
  unfold Format.holds at h
  unfold Format.wideHolds
  by_cases hs : f.signed = true
  · rw [if_pos hs] at h ⊢
    constructor <;> omega
  · rw [if_neg hs] at h ⊢
    constructor <;> omega

theorem holds_two (f : Format) : f.holds 2 := by
  have hw : 2 < f.w := by rcases f.width.bits_cases with h | h | h <;> simp [Format.w, h]
  have hfour : pow2 2 ≤ pow2 (f.w - 1) := pow2_mono (by omega)
  have hlarge : pow2 (f.w - 1) ≤ pow2 f.w := pow2_mono (Nat.sub_le _ _)
  have : (4 : Int) = pow2 2 := rfl
  unfold Format.holds
  split <;> constructor <;> omega

/-- Half of a value is a value. -/
theorem holds_half {f : Format} {d : Int} (h : f.holds d) : f.holds (d.tdiv 2) := by
  unfold Format.holds at h ⊢
  have hhalf : d ≤ d.tdiv 2 ∧ d.tdiv 2 ≤ 0 ∨ 0 ≤ d.tdiv 2 ∧ d.tdiv 2 ≤ d := by
    rcases lt_or_ge d 0 with hd | hd
    · rw [tdiv_two_of_neg hd]; omega
    · rw [Int.tdiv_eq_ediv_of_nonneg hd]; omega
  have hpos := pow2_pos (f.w - 1)
  by_cases hs : f.signed = true
  · rw [if_pos hs] at h ⊢
    constructor <;> omega
  · rw [if_neg hs] at h ⊢
    constructor <;> omega

/-- The constant 2 of the datapath. -/
theorem wideValue_two (f : Format) : f.wideValue 2 = 2 := Format.wideValue_ofInt (wideHolds_of_holds (holds_two f))

/-- R90 in IW-bit arithmetic: the product fits, so its shift is the floor. -/
theorem wide_mul_eq_pattern {f : Format} {a b : Word} (ha : f.fits a = true) (hb : f.fits b = true) :
    f.narrow (f.wideShift (f.widen a * f.widen b) f.frac) =
      f.pattern (Int.fdiv (f.value a * f.value b) (pow2 f.frac)) := by
  rw [f.narrow_eq_pattern, f.wideValue_wideShift, f.mul_eq_ofInt, f.wideValue_widen, f.wideValue_widen,
    Format.wideValue_ofInt (Format.wideHolds_mul (Format.value_holds ha) (Format.value_holds hb))]

/-- The pre-scaled dividend is exact in IW bits (R98). -/
theorem wideValue_dividend {f : Format} {a : Word} (ha : f.fits a = true) :
    f.wideValue (f.widen a <<< f.frac) = f.value a * pow2 f.frac := by
  rw [f.shiftLeft_eq_ofInt, f.wideValue_widen, Format.wideValue_ofInt (Format.wideHolds_scaled (Format.value_holds ha))]

/-- R95 in IW-bit arithmetic; a quotient that does not fit wraps to the same pattern (R98 (i)). -/
theorem wide_divf_eq_pattern {f : Format} {a : Word} (ha : f.fits a = true) (b : Word) :
    f.narrow (f.wideDiv (f.widen a <<< f.frac) (f.widen b)) =
      f.pattern (truncDiv (f.value a * pow2 f.frac) (f.value b)) := by
  rw [f.wideDiv_eq_ofInt, f.narrow_ofInt, wideValue_dividend ha, f.wideValue_widen, truncDiv]

theorem wideValue_half {f : Format} {b : Word} (hb : f.fits b = true) :
    f.wideValue (f.wideDiv (f.widen b) 2) = (f.value b).tdiv 2 := by
  rw [f.wideDiv_eq_ofInt, f.wideValue_widen, wideValue_two,
    Format.wideValue_ofInt (wideHolds_of_holds (holds_half (Format.value_holds hb)))]

/-- R96 in IW-bit arithmetic, where what is divided fits. -/
theorem wide_divr_eq_pattern {f : Format} {a b : Word} (ha : f.fits a = true) (hb : f.fits b = true)
    (hroom : ¬(f.signed = true ∧ f.frac = f.w ∧ f.w ≠ 8 ∧ f.value a = -pow2 (f.w - 1) ∧ 2 ≤ |f.value b|)) :
    f.narrow (f.wideDiv (if f.wideNegative (f.widen a <<< f.frac) = f.wideNegative (f.widen b)
        then f.widen a <<< f.frac + f.wideDiv (f.widen b) 2 else f.widen a <<< f.frac - f.wideDiv (f.widen b) 2)
        (f.widen b)) =
      f.pattern (roundedQuotient (f.value a * pow2 f.frac) (f.value b)) := by
  have hfit := Format.wideHolds_rounding_dividend (Format.value_holds ha) (Format.value_holds hb) hroom
  rw [← rounding_dividend_eq] at hfit
  rw [f.wideDiv_eq_ofInt, f.narrow_ofInt, f.add_eq_ofInt, f.sub_eq_ofInt, f.wideNegative_eq, f.wideNegative_eq,
    wideValue_dividend ha, wideValue_half hb, f.wideValue_widen, ← apply_ite (BitVec.ofInt _),
    Format.wideValue_ofInt hfit, roundedQuotient, truncDiv, truncDiv]

/-- Settles O42: the exact product, the pre-scaled dividend and, outside R98 (ii) and its mirror, what DIVR divides all
fit IW bits, so wrapping at IW bits is without effect before the narrowing. -/
theorem intermediateTypeHoldsProductAndDividend : Obligations.IntermediateTypeHoldsProductAndDividend := by
  intro s a b ha hb f
  refine ⟨f.intermediateWidth_eq, ?fits, ?mul, fun hne => ⟨?divf, fun hroom => ?divr⟩⟩
  case fits =>
    rintro z (rfl | rfl)
    · exact Format.wideHolds_mul (Format.value_holds ha) (Format.value_holds hb)
    · exact Format.wideHolds_scaled (Format.value_holds ha)
  case mul => rw [mulFloorsTheExactProduct s a b ha hb, wide_mul_eq_pattern ha hb]
  case divf => rw [exec_divf_eq_pattern s ha hb (value_ne_zero hb hne), wide_divf_eq_pattern ha b]
  case divr => rw [exec_divr_eq_pattern s ha hb (value_ne_zero hb hne), wide_divr_eq_pattern ha hb hroom]

end Sys2Proof.Machine

/-! # The square root: the common front, SQRTC and SQRTR (R105 to R107, R111, R132) -/

namespace Sys2Proof

/-! ## The sign of a fitting operand -/

theorem Format.value_eq_ite {f : Format} {x : Word} (h : f.fits x = true) :
    f.value x = if f.negative x then (x.toNat : Int) - pow2 f.w else x.toNat := by
  rw [← Format.ival_eq_value h, Format.ival]

theorem Format.negative_of_value_neg {f : Format} {x : Word} (h : f.fits x = true) (hx : f.value x < 0) :
    f.negative x = true := by
  rw [Format.value_eq_ite h] at hx
  split at hx
  · assumption
  · omega

theorem Format.negative_eq_false {f : Format} {x : Word} (h : f.fits x = true) (hx : 0 ≤ f.value x) :
    f.negative x = false := by
  rw [Format.value_eq_ite h] at hx
  split at hx
  · have hlt := (f.fits_iff x).1 h
    have hw : pow2 f.w = ((2 ^ f.w : Nat) : Int) := rfl
    omega
  · exact Bool.eq_false_iff.2 (by assumption)

theorem Format.value_of_nonneg {f : Format} {x : Word} (h : f.fits x = true) (hx : 0 ≤ f.value x) :
    f.value x = x.toNat := by
  rw [Format.value_eq_ite h, Format.negative_eq_false h hx]
  rfl

theorem Format.value_zero (f : Format) : f.value 0 = 0 := by
  rw [Format.value_eq_ite f.fits_zero]
  simp [Format.negative]

/-! ## The range of the values that are not negative -/

/-- The bits of a magnitude: the width without the sign bit. -/
def Format.magnitudeBits (f : Format) : Nat := if f.signed then f.w - 1 else f.w

theorem Format.holds_iff_of_nonneg {f : Format} {z : Int} (hz : 0 ≤ z) : f.holds z ↔ z < pow2 f.magnitudeBits := by
  have hneg := pow2_pos (f.w - 1)
  unfold Format.holds Format.magnitudeBits
  split
  · exact ⟨fun h => h.2, fun h => ⟨by omega, h⟩⟩
  · exact ⟨fun h => h.2, fun h => ⟨hz, h⟩⟩

theorem Format.value_lt {f : Format} {x : Word} (h : f.fits x = true) (hx : 0 ≤ f.value x) :
    f.value x < pow2 f.magnitudeBits := (Format.holds_iff_of_nonneg hx).1 (Format.value_holds h)

/-- A magnitude reads back unchanged. -/
theorem Format.value_pattern_of_nonneg {f : Format} {z : Int} (hz : 0 ≤ z) (hlt : z < pow2 f.magnitudeBits) :
    f.value (f.pattern z) = z := Format.value_pattern ((Format.holds_iff_of_nonneg hz).2 hlt)

theorem pow2_lt_iff {j k : Nat} : pow2 j < pow2 k ↔ j < k := by
  unfold pow2
  rw [Int.ofNat_lt, Nat.pow_lt_pow_iff_right (by decide)]

end Sys2Proof

namespace Sys2Proof.Machine

open Sys2Proof

/-! ## The front of R105 -/

theorem rootFront_negative {f : Format} {a : Word} (ha : f.fits a = true) (hneg : f.value a < 0) :
    rootFront f a = .negative := by
  rw [rootFront, if_pos (Format.negative_of_value_neg ha hneg)]

theorem rootFront_zero (f : Format) : rootFront f 0 = .zero := by
  rw [rootFront, Format.negative_eq_false f.fits_zero f.value_zero.ge]
  rfl

theorem withFront_negative {f : Format} {a : Word} (ha : f.fits a = true) (hneg : f.value a < 0)
    (go : Nat → Except CmdFault Word) : withFront f a go = .error .sqrtNegative := by
  rw [withFront, rootFront_negative ha hneg]

theorem withFront_zero (f : Format) (go : Nat → Except CmdFault Word) : withFront f 0 go = .ok 0 := by
  rw [withFront, rootFront_zero, Format.wrap_eq_pattern, Format.pattern_zero]

/-- The model counts the highest set bit from the leading zeros. -/
theorem highestSetBit_spec {f : Format} {a : Word} (ha : f.fits a = true) (hne : a ≠ 0) :
    2 ^ highestSetBit f a ≤ a.toNat ∧ a.toNat < 2 ^ (highestSetBit f a + 1) := by
  have hnat : a.toNat ≠ 0 := fun h => hne (BitVec.eq_of_toNat_eq h)
  obtain ⟨hlz, hlow, hhigh⟩ := leadingZeros_spec f.w a ((f.fits_iff a).1 ha) hnat
  have hsucc : highestSetBit f a + 1 = f.w - leadingZeros f.w a := by unfold highestSetBit Format.clz; omega
  exact ⟨hlow, hsucc ▸ hhigh⟩

/-- A number has one highest set bit. -/
theorem highestBit_unique {n h h' : Nat} (hlow : 2 ^ h ≤ n) (hhigh : n < 2 ^ (h + 1)) (hlow' : 2 ^ h' ≤ n)
    (hhigh' : n < 2 ^ (h' + 1)) : h = h' := by
  have := (Nat.pow_lt_pow_iff_right (by decide)).1 (hlow.trans_lt hhigh')
  have := (Nat.pow_lt_pow_iff_right (by decide)).1 (hlow'.trans_lt hhigh)
  omega

theorem ne_zero_of_highestBit {a : Word} {h : Nat} (hlow : 2 ^ h ≤ a.toNat) : a ≠ 0 := by
  rintro rfl
  exact absurd hlow (Nat.two_pow_pos h).not_ge

theorem withFront_of_ne_zero {f : Format} {a : Word} (ha : f.fits a = true) (hnonneg : 0 ≤ f.value a) (hne : a ≠ 0)
    (go : Nat → Except CmdFault Word) : withFront f a go = go ((highestSetBit f a + f.frac) / 2) := by
  rw [withFront, rootFront, Format.negative_eq_false ha hnonneg, if_neg Bool.false_ne_true, if_neg hne]

/-- R105: with `h` the highest set bit, the front finds e = floor((h + F) / 2). -/
theorem withFront_exponent {f : Format} {a : Word} {h : Nat} (ha : f.fits a = true) (hnonneg : 0 ≤ f.value a)
    (hlow : 2 ^ h ≤ a.toNat) (hhigh : a.toNat < 2 ^ (h + 1)) (go : Nat → Except CmdFault Word) :
    withFront f a go = go ((h + f.frac) / 2) := by
  have hne := ne_zero_of_highestBit hlow
  obtain ⟨hlow', hhigh'⟩ := highestSetBit_spec ha hne
  rw [withFront_of_ne_zero ha hnonneg hne, highestBit_unique hlow hhigh hlow' hhigh']

/-- Settles O27: in all three commands the front ends a negative radicand with SQRT_NEGATIVE. -/
theorem negativeRadicandTakesSqrtNegative : Obligations.NegativeRadicandTakesSqrtNegative := by
  intro s a ha hneg
  refine ⟨⟨_, exec_sqrtc a s, ?_⟩, ⟨_, exec_sqrtr a s, ?_⟩, ⟨_, exec_sqrt a s, ?_⟩⟩
  · rw [sqrtcValue, withFront_negative ha hneg]
    exact raise_faultEntry s rfl
  · rw [sqrtrValue, withFront_negative ha hneg]
    exact raise_faultEntry s rfl
  · rw [sqrtValue, withFront_negative ha hneg]
    exact raise_faultEntry s rfl

/-- Settles O47: in all three commands the front ends with 0 at zero. -/
theorem rootOfZeroIsZero : Obligations.RootOfZeroIsZero := by
  intro s
  rw [exec_sqrtc, exec_sqrtr, exec_sqrt, sqrtcValue, sqrtrValue, sqrtValue, withFront_zero, withFront_zero,
    withFront_zero]
  exact ⟨rfl, rfl, rfl⟩

/-! ## SQRTC -/

/-- Settles O48: the front finds the exponent and the coarse root is the wrapped power of two. -/
theorem sqrtcIsTheCoarsePowerOfTwo : Obligations.SqrtcIsTheCoarsePowerOfTwo := by
  intro s a h ha hnonneg hlow hhigh
  rw [exec_sqrtc, sqrtcValue, withFront_exponent ha hnonneg hlow hhigh, coarseRoot, Format.wrap_eq_pattern]
  rfl

/-- R106: a radicand whose highest set bit is at h + F lies between the squares of 2^e and 2^(e+1). -/
theorem coarse_bounds {a : Int} {h F : Nat} (hlow : pow2 h ≤ a) (hhigh : a < pow2 (h + 1)) :
    pow2 ((h + F) / 2) ^ 2 ≤ a * pow2 F ∧ a * pow2 F < (2 * pow2 ((h + F) / 2)) ^ 2 := by
  have hscale := pow2_pos F
  constructor
  · calc pow2 ((h + F) / 2) ^ 2 = pow2 ((h + F) / 2 + (h + F) / 2) := by rw [sq, pow2_add]
      _ ≤ pow2 (h + F) := pow2_mono (by omega)
      _ = pow2 h * pow2 F := pow2_add h F
      _ ≤ a * pow2 F := mul_le_mul_of_nonneg_right hlow hscale.le
  · calc a * pow2 F < pow2 (h + 1) * pow2 F := mul_lt_mul_of_pos_right hhigh hscale
      _ = pow2 (h + 1 + F) := (pow2_add (h + 1) F).symm
      _ ≤ pow2 (1 + (h + F) / 2 + (1 + (h + F) / 2)) := pow2_mono (by omega)
      _ = (2 * pow2 ((h + F) / 2)) ^ 2 := by rw [pow2_add, pow2_add 1, sq]; rfl

/-- A positive operand, its highest set bit, and what they are as integers. -/
theorem exists_highestBit {f : Format} {a : Word} (ha : f.fits a = true) (hpos : 0 < f.value a) :
    ∃ h, 2 ^ h ≤ a.toNat ∧ a.toNat < 2 ^ (h + 1) ∧ pow2 h ≤ f.value a ∧ f.value a < pow2 (h + 1) ∧
      h < f.magnitudeBits := by
  have hne : a ≠ 0 := fun h => by rw [h, f.value_zero] at hpos; exact absurd hpos (lt_irrefl 0)
  obtain ⟨hlow, hhigh⟩ := highestSetBit_spec ha hne
  have hvalue := Format.value_of_nonneg ha hpos.le
  have hlow' : pow2 (highestSetBit f a) ≤ f.value a := by rw [hvalue]; exact Int.ofNat_le.2 hlow
  have hhigh' : f.value a < pow2 (highestSetBit f a + 1) := by rw [hvalue]; exact Int.ofNat_lt.2 hhigh
  exact ⟨_, hlow, hhigh, hlow', hhigh', pow2_lt_iff.1 (hlow'.trans_lt (Format.value_lt ha hpos.le))⟩

/-- The smallest value, which 2^(W-1) wraps to when the format is signed. -/
theorem value_pattern_half {f : Format} (hs : f.signed = true) :
    f.value (f.pattern (pow2 (f.w - 1))) = -pow2 (f.w - 1) := by
  have hpos := pow2_pos (f.w - 1)
  rw [← f.pattern_neg_half]
  apply Format.value_pattern
  unfold Format.holds
  rw [if_pos hs]
  constructor <;> omega

/-- R106: 2^e reads back as itself where it fits. -/
theorem value_coarse_of_fits {f : Format} {h : Nat} (hbits : h < f.magnitudeBits)
    (hfit : ¬(f.signed = true ∧ f.frac = f.w ∧ f.w - 2 ≤ h)) :
    f.value (f.pattern (pow2 ((h + f.frac) / 2))) = pow2 ((h + f.frac) / 2) := by
  have hfrac : f.frac ≤ f.w := f.frac_le
  have he : (h + f.frac) / 2 < f.magnitudeBits := by
    unfold Format.magnitudeBits at hbits ⊢
    by_cases hs : f.signed = true
    · simp only [if_pos hs] at hbits ⊢
      have hor : ¬(f.frac = f.w ∧ f.w - 2 ≤ h) := fun hc => hfit ⟨hs, hc⟩
      omega
    · simp only [if_neg hs] at hbits ⊢
      omega
  exact Format.value_pattern_of_nonneg (pow2_pos _).le (pow2_lt_iff.2 he)

/-- R106: it wraps where e = W - 1 in a signed format, which needs the greatest scale and the highest bit there is. -/
theorem value_coarse_of_wraps {f : Format} {h : Nat} (hbits : h < f.magnitudeBits) (hs : f.signed = true)
    (hF : f.frac = f.w) (htop : f.w - 2 ≤ h) :
    f.value (f.pattern (pow2 ((h + f.frac) / 2))) = -pow2 (f.w - 1) := by
  rw [Format.magnitudeBits, if_pos hs] at hbits
  have he : (h + f.frac) / 2 = f.w - 1 := by omega
  rw [he, value_pattern_half hs]

/-- Settles O49, by the case in which 2^e wraps; where it fits it is between half the root and the root. -/
theorem sqrtcIsWithinAFactorOfTwo : Obligations.SqrtcIsWithinAFactorOfTwo := by
  intro s a ha hpos
  obtain ⟨h, hlow, hhigh, hlow', hhigh', hbits⟩ := exists_highestBit ha hpos
  have htop : 2 ^ (s.cfg.src.w - 2) ≤ a.toNat ↔ s.cfg.src.w - 2 ≤ h :=
    ⟨fun hle => Nat.le_of_lt_succ ((Nat.pow_lt_pow_iff_right (by decide)).1 (hle.trans_lt hhigh)),
      fun hle => (Nat.pow_le_pow_right (by decide) hle).trans hlow⟩
  refine ⟨_, sqrtcIsTheCoarsePowerOfTwo s a h ha hpos.le hlow hhigh, ?_⟩
  split
  case isTrue hwrap =>
    obtain ⟨hs, hF, hle⟩ := hwrap
    exact value_coarse_of_wraps hbits hs hF (htop.1 hle)
  case isFalse hfit =>
    rw [htop] at hfit
    rw [value_coarse_of_fits hbits hfit]
    exact ⟨pow2_pos _, coarse_bounds hlow' hhigh'⟩

/-! ## SQRTR -/

/-- The right shift by one of R14, in the library's words. -/
theorem shr1_eq_pattern {f : Format} {x : Word} (hx : f.fits x = true) :
    f.shr1 x = f.pattern (Int.fdiv (f.value x) 2) := by
  rw [Format.shr1, Format.wrap_eq_pattern, floorShift_eq_fdiv, Format.ival_eq_value hx]
  rfl

theorem addValue_fits (f : Format) (x y : Word) : f.fits (addValue f x y) = true := Format.wrap_fits _ _

/-- What ADD writes is what the model's sum is (R80). -/
theorem eq_addValue_of_exec {s : State} {x y r : Word} (h : exec (.add x y) s = .next (s.withResult r)) :
    r = addValue s.cfg.src x y := by
  rw [exec_add, finishRes_eq_withResult] at h
  exact (next_withResult_inj h).symm

/-- The rescaled radicand of R107, in the library's words. -/
theorem rescaledRadicand_eq_pattern {f : Format} {a : Word} (ha : f.fits a = true) (e : Nat) :
    rescaledRadicand f a e = f.pattern (if f.frac ≤ e then Int.fdiv (f.value a) (pow2 (e - f.frac))
      else f.value a * pow2 (f.frac - e)) := by
  rw [rescaledRadicand, Format.ival_eq_value ha, Format.wrap_eq_pattern, Format.wrap_eq_pattern, floorShift_eq_fdiv,
    ← apply_ite f.pattern]

/-- Settles O50: the refined root is the shift of the model's sum of the coarse and the rescaled estimate. -/
theorem sqrtrAveragesTheCoarseEstimate : Obligations.SqrtrAveragesTheCoarseEstimate := by
  intro s a h e y0 t sum ha hnonneg hlow hhigh he hy0 ht hsum
  rw [exec_sqrtr, sqrtrValue, withFront_exponent ha hnonneg hlow hhigh, ← he, refinedRoot, coarseRoot,
    Format.wrap_eq_pattern, rescaledRadicand_eq_pattern ha, ← hy0, ← ht, ← eq_addValue_of_exec hsum, shr1_eq_pattern]
  · rfl
  · rw [eq_addValue_of_exec hsum]
    exact addValue_fits _ _ _

end Sys2Proof.Machine

/-! # The square root: the iterations of SQRT (R108 to R110, R135) -/

namespace Sys2Proof.Machine

open Sys2Proof

/-! ## Reading a result back from a completion -/

/-- A command that completed with a result had one. -/
theorem eq_ok_of_conclude {r : Except CmdFault Word} {s : State} {v : Word}
    (h : (Host.Outcome.next (conclude r s) : Host.Outcome State Fault Refusal) = .next (s.withResult v)) :
    r = .ok v := by
  have hstate := Host.Outcome.next.inj h
  cases r with
  | ok w => rw [withResult_inj hstate]
  | error k => exact absurd (congrArg State.status hstate) k.status_ne_ok

theorem divfValue_of_exec {s : State} {a b q : Word} (h : exec (.divf a b) s = .next (s.withResult q)) :
    divfValue s.cfg.src a b = .ok q := eq_ok_of_conclude h

theorem divrValue_of_exec {s : State} {a b q : Word} (h : exec (.divr a b) s = .next (s.withResult q)) :
    divrValue s.cfg.src a b = .ok q := eq_ok_of_conclude h

/-! ## `repeat` along a chain of iterates -/

/-- The first `n` iterates of a chain use up `n` repetitions. -/
theorem repeatStep_chain {body : Word → Except CmdFault Word} {y : Nat → Word} {n : Nat}
    (h : ∀ k < n, body (y k) = .ok (y (k + 1))) (m : Nat) :
    repeatStep body (n + m) (y 0) = repeatStep body m (y n) := by
  induction n generalizing y with
  | zero => rw [Nat.zero_add]
  | succ n ih =>
    rw [Nat.succ_add, repeatStep, h 0 n.succ_pos]
    exact ih (y := fun k => y (k + 1)) fun k hk => h (k + 1) (Nat.succ_lt_succ hk)

theorem repeatStep_of_chain {body : Word → Except CmdFault Word} {y : Nat → Word} {n : Nat}
    (h : ∀ k < n, body (y k) = .ok (y (k + 1))) : repeatStep body n (y 0) = .ok (y n) := repeatStep_chain h 0

/-- A chain that ends at an iterate whose step raises a fault ends the repetition with that fault (R110). -/
theorem repeatStep_of_fault {body : Word → Except CmdFault Word} {y : Nat → Word} {n total : Nat} {k : CmdFault}
    (h : ∀ j < n, body (y j) = .ok (y (j + 1))) (hn : n < total) (hfault : body (y n) = .error k) :
    repeatStep body total (y 0) = .error k := by
  obtain ⟨m, rfl⟩ := Nat.exists_eq_add_of_lt hn
  rw [Nat.add_assoc, repeatStep_chain h, repeatStep, hfault]

/-! ## The chains of the statements are chains of the model's steps -/

/-- The iterates up to the `n`th are what DIVF, ADD and the shift give (R108). -/
abbrev FastChain (s : State) (a : Word) (y : Nat → Word) (n : Nat) : Prop :=
  ∀ k < n, ∃ q r, exec (.divf a (y k)) s = .next (s.withResult q) ∧ exec (.add (y k) q) s = .next (s.withResult r) ∧
    y (k + 1) = s.cfg.src.pattern (Int.fdiv (s.cfg.src.value r) 2)

/-- The iterates up to the `n`th are what DIVR, ADD and DIVR by TWO give (R108, R109). -/
abbrev PreciseChain (s : State) (a : Word) (z : Nat → Word) (n : Nat) : Prop :=
  ∀ k < n, ∃ q r, exec (.divr a (z k)) s = .next (s.withResult q) ∧ exec (.add (z k) q) s = .next (s.withResult r) ∧
    exec (.divr r (s.cfg.src.pattern (2 * pow2 s.cfg.src.frac))) s = .next (s.withResult (z (k + 1)))

theorem rootTwo_eq_pattern (f : Format) : rootTwo f = f.pattern (2 * pow2 f.frac) := f.wrap_eq_pattern _

theorem FastChain.fastStep_eq {s : State} {a : Word} {y : Nat → Word} {n : Nat} (h : FastChain s a y n) :
    ∀ k < n, fastStep s.cfg.src a (y k) = .ok (y (k + 1)) := by
  intro k hk
  obtain ⟨q, r, hdiv, hadd, hnext⟩ := h k hk
  obtain rfl := eq_addValue_of_exec hadd
  rw [fastStep, divfValue_of_exec hdiv, hnext, ← shr1_eq_pattern (addValue_fits _ _ _)]

theorem PreciseChain.preciseStep_eq {s : State} {a : Word} {z : Nat → Word} {n : Nat} (h : PreciseChain s a z n) :
    ∀ k < n, preciseStep s.cfg.src a (z k) = .ok (z (k + 1)) := by
  intro k hk
  obtain ⟨q, r, hdiv, hadd, hhalf⟩ := h k hk
  obtain rfl := eq_addValue_of_exec hadd
  rw [← rootTwo_eq_pattern] at hhalf
  rw [preciseStep, divrValue_of_exec hdiv]
  exact divrValue_of_exec hhalf

/-- Away from zero the front faults or goes on from an exponent, the same in all three commands (R105). -/
theorem withFront_cases (f : Format) {a : Word} (hne : a ≠ 0) :
    (∀ go, withFront f a go = .error .sqrtNegative) ∨ ∃ e, ∀ go, withFront f a go = go e := by
  by_cases hneg : f.negative a = true
  · exact .inl fun go => by rw [withFront, rootFront, if_pos hneg]
  · exact .inr ⟨_, fun go => by rw [withFront, rootFront, if_neg hneg, if_neg hne]⟩

/-- SQRT iterates from the value SQRTR gives (R108). -/
theorem sqrtValue_of_exec_sqrtr {s : State} {a y : Word} (hne : a ≠ 0)
    (h : exec (.sqrtr a) s = .next (s.withResult y)) : sqrtValue s.cfg a = iterateRoot s.cfg a y := by
  have hroot : sqrtrValue s.cfg.src a = .ok y := eq_ok_of_conclude h
  rw [sqrtrValue] at hroot
  rcases withFront_cases s.cfg.src hne with hfault | ⟨e, hfront⟩
  · rw [hfault] at hroot
    exact nomatch hroot
  · rw [hfront] at hroot
    rw [sqrtValue, hfront, Except.ok.inj hroot]

/-- Settles O53: both chains are chains of the model's steps, each as long as its repetition. -/
theorem sqrtRunsFastThenPreciseIterations : Obligations.SqrtRunsFastThenPreciseIterations := by
  intro s a y z _ hne hstart hfast hjoin hprecise
  have hy := repeatStep_of_chain (FastChain.fastStep_eq hfast)
  have hz := repeatStep_of_chain (PreciseChain.preciseStep_eq hprecise)
  rw [exec_sqrt, sqrtValue_of_exec_sqrtr hne hstart, iterateRoot, hy]
  dsimp only
  rw [← hjoin, hz]
  rfl

/-! ## Zero divisors inside SQRT -/

theorem fastStep_zero (f : Format) (a : Word) : fastStep f a 0 = .error .divByZero := by
  have hzero : f.ival 0 = 0 := (Format.ival_eq_value f.fits_zero).trans f.value_zero
  rw [fastStep, divfValue, if_pos hzero]

theorem divrValue_zero (f : Format) (a : Word) : divrValue f a 0 = .error .divByZero := by
  have hzero : f.ival 0 = 0 := (Format.ival_eq_value f.fits_zero).trans f.value_zero
  rw [divrValue, if_pos hzero]

/-- A precise step meets a zero divisor at a zero iterate, and whenever TWO wraps to zero (R109, R110). -/
theorem preciseStep_zero {f : Format} (a : Word) {z : Word} (h : z = 0 ∨ rootTwo f = 0) :
    preciseStep f a z = .error .divByZero := by
  rw [preciseStep]
  rcases divrValue_cases f a z with ⟨-, hz⟩ | ⟨hne, hz⟩
  · rw [hz]
  · have htwo : rootTwo f = 0 := h.resolve_left fun hzero => hne <| by
      rw [hzero, Format.ival_eq_value f.fits_zero, f.value_zero]
    rw [hz, htwo]
    exact divrValue_zero f _

/-- Settles O29, by the phase the zero divisor is met in. -/
theorem zeroDivisorInsideSqrtTakesDivByZero : Obligations.ZeroDivisorInsideSqrtTakesDivByZero := by
  intro s a y z n m _ hne hstart hfast hcase
  have hfault : iterateRoot s.cfg a (y 0) = .error .divByZero := by
    rw [iterateRoot]
    rcases hcase with ⟨hn, hzero⟩ | ⟨rfl, hjoin, hm, hprecise, hzero⟩
    case inl =>
      rw [repeatStep_of_fault (FastChain.fastStep_eq hfast) hn (hzero ▸ fastStep_zero s.cfg.src a)]
    case inr =>
      rw [← rootTwo_eq_pattern] at hzero
      rw [repeatStep_of_chain (FastChain.fastStep_eq hfast)]
      dsimp only
      rw [← hjoin]
      exact repeatStep_of_fault (PreciseChain.preciseStep_eq hprecise) hm (preciseStep_zero a hzero)
  refine ⟨_, exec_sqrt a s, ?_⟩
  rw [sqrtValue_of_exec_sqrtr hne hstart, hfault]
  exact raise_faultEntry s rfl

end Sys2Proof.Machine

/-! # The square root: the arithmetic of the steps on integers (R107, R112, R113) -/

namespace Sys2Proof

/-! ## The refined estimate: one step from `c`, where `c^2 ≤ X < (2 c)^2` -/

/-- The sum of the two estimates, in terms of its product with `c`. -/
theorem refined_sum_mul_le (X : Int) {c : Int} (hc : 0 < c) : (c + X / c) * c ≤ c ^ 2 + X := by
  have := Int.ediv_mul_le X hc.ne'
  nlinarith

/-- R112: twice the refined estimate is at most 5/2 of the root. -/
theorem refined_sum_sq_le {X c : Int} (hc : 0 < c) (hlow : c ^ 2 ≤ X) (hhigh : X < (2 * c) ^ 2) :
    4 * (c + X / c) ^ 2 ≤ 25 * X := by
  have hX : 0 ≤ X := (sq_nonneg c).trans hlow
  have hsum : 0 ≤ (c + X / c) * c := mul_nonneg (add_nonneg hc.le (Int.ediv_nonneg hX hc.le)) hc.le
  have hsq : ((c + X / c) * c) ^ 2 ≤ (c ^ 2 + X) ^ 2 := pow_le_pow_left₀ hsum (refined_sum_mul_le X hc) 2
  have hroots : 4 * (c ^ 2 + X) ^ 2 ≤ 25 * X * c ^ 2 := by
    have : 0 ≤ (4 * c ^ 2 - X) * (4 * X - c ^ 2) := mul_nonneg (by nlinarith) (by nlinarith)
    linarith
  have hmul : 4 * (c + X / c) ^ 2 * c ^ 2 ≤ 25 * X * c ^ 2 := by
    rw [mul_pow] at hsq
    linarith
  exact le_of_mul_le_mul_right hmul (by positivity)

/-- R113: the refined estimate `v` is no farther above the root than `c` is below. -/
theorem refined_no_farther {X c : Int} (hc : 0 < c) (hlow : c ^ 2 ≤ X) (hhigh : X < (2 * c) ^ 2) :
    (c + (c + X / c) / 2) ^ 2 ≤ 4 * X := by
  have hX : 0 ≤ X := (sq_nonneg c).trans hlow
  have hq : 0 ≤ X / c := Int.ediv_nonneg hX hc.le
  have hmulle := refined_sum_mul_le X hc
  have hle : (c + (c + X / c) / 2) * (2 * c) ≤ 3 * c ^ 2 + X := by nlinarith [Int.ediv_mul_le (c + X / c) two_ne_zero]
  have hnonneg : 0 ≤ (c + (c + X / c) / 2) * (2 * c) := mul_nonneg (by omega) (by omega)
  have hsq := pow_le_pow_left₀ hnonneg hle 2
  have hroots : (3 * c ^ 2 + X) ^ 2 ≤ 16 * X * c ^ 2 := by
    have : 0 ≤ (9 * c ^ 2 - X) * (X - c ^ 2) := mul_nonneg (by nlinarith) (by nlinarith)
    linarith
  have hmul : (c + (c + X / c) / 2) ^ 2 * (4 * c ^ 2) ≤ 4 * X * (4 * c ^ 2) := by
    rw [mul_pow] at hsq
    linarith
  exact le_of_mul_le_mul_right hmul (by positivity)

/-! ## What the iterations keep: not much below the root, and not far above it -/

/-- An iterate is positive, less than one unit below the root, and less than one unit above 5/4 of it. -/
structure NearRoot (X y : Int) : Prop where
  pos   : 0 < y
  lower : X < (y + 1) ^ 2
  upper : 16 * (y - 1) ^ 2 ≤ 25 * X

/-- The quotient of an iterate not above the root is at most two units larger than it. -/
theorem NearRoot.quotient_le {X y : Int} (h : NearRoot X y) : X / y ≤ y + 2 := by
  have hlt : X < (y + 3) * y := by nlinarith [h.pos, h.lower]
  have := (Int.ediv_lt_iff_lt_mul h.pos).2 hlt
  omega

/-- That of an iterate above the root is smaller than it. -/
theorem quotient_lt_of_lt_sq {X y : Int} (hy : 0 < y) (h : X < y ^ 2) : X / y < y := by
  rw [Int.ediv_lt_iff_lt_mul hy, ← sq]
  exact h

/-- A step keeps the bounds if it does not pass below the root by a unit, falls from above the root, and rises by at
most a unit from below. -/
theorem NearRoot.of_step {X y y' : Int} (h : NearRoot X y) (hX : 0 < X) (hpos : 0 < y') (hlower : X < (y' + 1) ^ 2)
    (hfall : X < y ^ 2 → y' ≤ y) (hrise : y' ≤ y + 1) : NearRoot X y' := by
  refine ⟨hpos, hlower, ?_⟩
  have hpos' := h.pos
  rcases lt_or_ge X (y ^ 2) with habove | hbelow
  · have hle := hfall habove
    calc 16 * (y' - 1) ^ 2 ≤ 16 * (y - 1) ^ 2 := by nlinarith
      _ ≤ 25 * X := h.upper
  · nlinarith

theorem NearRoot.fast {X y : Int} (h : NearRoot X y) (hX : 0 < X) : NearRoot X ((y + X / y) / 2) := by
  have hy := h.pos
  have hq := h.quotient_le
  have hq0 : 0 ≤ X / y := Int.ediv_nonneg hX.le hy.le
  have hpos : 0 < (y + X / y) / 2 := by
    rcases eq_or_ne y 1 with rfl | hne
    · rw [Int.ediv_one]; omega
    · omega
  refine h.of_step hX hpos (newton_floor_lower hX.le hy) (fun habove => ?_) (by omega)
  have := quotient_lt_of_lt_sq hy habove
  omega

/-! ### The precise step, whose quotient is rounded to nearest -/

theorem rounded_ediv_bounds (X : Int) {y : Int} (hy : 0 < y) :
    X / y ≤ (X + y / 2) / y ∧ (X + y / 2) / y ≤ X / y + 1 := by
  have hstep : (X + 1 * y) / y = X / y + 1 := Int.add_mul_ediv_right X 1 hy.ne'
  exact ⟨Int.ediv_le_ediv hy (by omega), hstep ▸ Int.ediv_le_ediv hy (by omega)⟩

/-- From an iterate not below the root the rounded quotient is not above the iterate. -/
theorem rounded_ediv_le_of_le_sq {X y : Int} (hy : 0 < y) (h : X ≤ y ^ 2) : (X + y / 2) / y ≤ y := by
  apply Int.le_of_lt_add_one
  rw [Int.ediv_lt_iff_lt_mul hy]
  have : y / 2 < y := by omega
  nlinarith

theorem NearRoot.rounded_le {X y : Int} (h : NearRoot X y) : (X + y / 2) / y ≤ y + 2 := by
  have hy := h.pos
  apply Int.le_of_lt_add_one
  rw [Int.ediv_lt_iff_lt_mul hy]
  have : y / 2 < y := by omega
  nlinarith [h.lower]

theorem NearRoot.precise {X y : Int} (h : NearRoot X y) (hX : 0 < X) :
    NearRoot X ((y + (X + y / 2) / y + 1) / 2) := by
  have hy := h.pos
  obtain ⟨hq, -⟩ := rounded_ediv_bounds X hy
  have hr := h.rounded_le
  have hq0 : 0 ≤ X / y := Int.ediv_nonneg hX.le hy.le
  refine h.of_step hX (by omega) (newton_rounded_lower hy hq (by omega)) (fun habove => ?_) (by omega)
  have := rounded_ediv_le_of_le_sq hy habove.le
  omega

/-- R112: with three whole bits no sum of the iterations wraps, the rounded quotient's included. -/
theorem NearRoot.sum_lt {X y M : Int} (h : NearRoot X y) (hM : 128 ≤ M) (hX : 8 * X < M ^ 2) : y + X / y + 1 < M := by
  have hy := h.pos
  rcases lt_or_ge X (y ^ 2) with habove | hbelow
  · have hq := quotient_lt_of_lt_sq hy habove
    have : 2 * y < M := by
      by_contra hge
      nlinarith [h.upper]
    omega
  · have hq := h.quotient_le
    have : 2 * y + 3 < M := by
      by_contra hge
      nlinarith
    omega

/-! ## How fast the iterations come down to the root -/

/-- Bounds p / q on iterate over root: 5/4, and after each step the mean of p / q and q / p. -/
def newtonRatio : Nat → Int × Int
  | 0     => (5, 4)
  | k + 1 => ((newtonRatio k).1 ^ 2 + (newtonRatio k).2 ^ 2, 2 * (newtonRatio k).1 * (newtonRatio k).2)

/-- An iterate is at most p / q of the root, unless it is the root rounded. -/
def RatioBound (r : Int × Int) (X y : Int) : Prop := y ^ 2 ≤ X + 1 ∨ r.2 ^ 2 * y ^ 2 ≤ r.1 ^ 2 * X

/-- The mean of `y` and `X / y` for `y` between q / p and p / q of the root. -/
theorem newton_ratio_le {X y p q : Int} (hy : 0 < y) (hX : 0 ≤ X) (hlow : q ^ 2 * X ≤ p ^ 2 * y ^ 2)
    (hhigh : q ^ 2 * y ^ 2 ≤ p ^ 2 * X) :
    (2 * p * q) ^ 2 * ((y + X / y) / 2) ^ 2 ≤ (p ^ 2 + q ^ 2) ^ 2 * X := by
  have hq : 0 ≤ X / y := Int.ediv_nonneg hX hy.le
  have hle : (y + X / y) / 2 * (2 * y) ≤ y ^ 2 + X := by
    nlinarith [Int.ediv_mul_le (y + X / y) two_ne_zero, refined_sum_mul_le X hy]
  have hnonneg : 0 ≤ (y + X / y) / 2 * (2 * y) := mul_nonneg (by omega) (by omega)
  have hsq := pow_le_pow_left₀ hnonneg hle 2
  have hprod := mul_nonneg (sub_nonneg.2 hlow) (sub_nonneg.2 hhigh)
  have hroots : (p * q) ^ 2 * (y ^ 2 + X) ^ 2 ≤ (p ^ 2 + q ^ 2) ^ 2 * X * y ^ 2 := by linarith
  have hmul : (2 * p * q) ^ 2 * ((y + X / y) / 2) ^ 2 * y ^ 2 ≤ (p ^ 2 + q ^ 2) ^ 2 * X * y ^ 2 := by
    calc (2 * p * q) ^ 2 * ((y + X / y) / 2) ^ 2 * y ^ 2 = (p * q) ^ 2 * ((y + X / y) / 2 * (2 * y)) ^ 2 := by ring
      _ ≤ (p * q) ^ 2 * (y ^ 2 + X) ^ 2 := mul_le_mul_of_nonneg_left hsq (sq_nonneg _)
      _ ≤ (p ^ 2 + q ^ 2) ^ 2 * X * y ^ 2 := hroots
  exact le_of_mul_le_mul_right hmul (by positivity)

/-- Once at most the rounded root, a fast iterate stays so. -/
theorem NearRoot.fast_sq_le {X y : Int} (h : NearRoot X y) (hX : 0 < X) (hle : y ^ 2 ≤ X + 1) :
    ((y + X / y) / 2) ^ 2 ≤ X + 1 := by
  have hy := h.pos
  have hpos := (h.fast hX).pos
  rcases lt_or_ge X (y ^ 2) with habove | hbelow
  · have hq := quotient_lt_of_lt_sq hy habove
    have : (y + X / y) / 2 ≤ y := by omega
    nlinarith
  · rcases lt_or_ge (X / y) (y + 2) with hq | hq
    · have : (y + X / y) / 2 ≤ y := by omega
      nlinarith
    · have hX2 : (y + 2) * y ≤ X := (Int.le_ediv_iff_mul_le hy).1 hq
      have : (y + X / y) / 2 ≤ y + 1 := by have := h.quotient_le; omega
      nlinarith

/-- The two parts of a ratio stay one apart: p^2 + q^2 - 2 p q = (p - q)^2. -/
theorem newtonRatio_apart (k : Nat) : 0 < (newtonRatio k).2 ∧ (newtonRatio k).1 = (newtonRatio k).2 + 1 := by
  induction k with
  | zero => decide
  | succ k ih =>
    obtain ⟨hpos, hone⟩ := ih
    simp only [newtonRatio, hone]
    exact ⟨by positivity, by ring⟩

theorem RatioBound.fast {X y : Int} {k : Nat} (hb : RatioBound (newtonRatio k) X y) (h : NearRoot X y) (hX : 0 < X) :
    RatioBound (newtonRatio (k + 1)) X ((y + X / y) / 2) := by
  obtain ⟨hq, hone⟩ := newtonRatio_apart k
  rcases hb with hsmall | hratio
  · exact .inl (h.fast_sq_le hX hsmall)
  · rcases lt_or_ge X (y ^ 2) with habove | hbelow
    · have hqp : (newtonRatio k).2 ^ 2 ≤ (newtonRatio k).1 ^ 2 := pow_le_pow_left₀ hq.le (by omega) 2
      exact .inr (newton_ratio_le h.pos hX.le (mul_le_mul hqp habove.le hX.le (sq_nonneg _)) hratio)
    · exact .inl (h.fast_sq_le hX (by omega))

/-- An iterate smaller than the ratio's numerator is less than one unit above the root. -/
theorem RatioBound.within_one {X y : Int} {k : Nat} (hb : RatioBound (newtonRatio k) X y) (hX : 0 < X) (hy : 0 < y)
    (hsmall : y < (newtonRatio k).1) : (y - 1) ^ 2 < X := by
  obtain ⟨hq, hone⟩ := newtonRatio_apart k
  rcases hb with hround | hratio
  · rcases eq_or_ne y 1 with rfl | hne
    · simpa using hX
    · have : 2 ≤ y := by omega
      nlinarith
  · by_contra hge
    have hsq : ((newtonRatio k).2 * y) ^ 2 ≤ ((newtonRatio k).1 * (y - 1)) ^ 2 := by
      rw [mul_pow, mul_pow]
      exact hratio.trans (mul_le_mul_of_nonneg_left (not_lt.1 hge) (sq_nonneg _))
    have hle := le_of_sq_le_sq hsq (mul_nonneg (by omega) (by omega))
    rw [hone] at hle hsmall
    nlinarith

/-- Four steps are enough for every iterate of at most 32 bits. -/
theorem two_pow_32_lt_newtonRatio_four : 2 ^ 32 < (newtonRatio 4).1 := by
  simp only [newtonRatio]
  norm_num

/-- A precise step keeps an iterate less than one unit above the root. -/
theorem NearRoot.precise_within_one {X y : Int} (h : NearRoot X y) (hX : 0 < X) (hone : (y - 1) ^ 2 < X) :
    ((y + (X + y / 2) / y + 1) / 2 - 1) ^ 2 < X := by
  have hy := h.pos
  have hpos := (h.precise hX).pos
  rcases le_or_gt X (y ^ 2) with hfall | hrise
  · have := rounded_ediv_le_of_le_sq hy hfall
    have : (y + (X + y / 2) / y + 1) / 2 ≤ y := by omega
    nlinarith
  · have := h.rounded_le
    have : (y + (X + y / 2) / y + 1) / 2 ≤ y + 1 := by omega
    nlinarith

end Sys2Proof

/-! # The square root with at least three whole bits (R110, R112, R113) -/

namespace Sys2Proof

/-! ## The room three whole bits leave -/

theorem Format.magnitudeBits_ge (f : Format) : 7 ≤ f.magnitudeBits := by
  unfold Format.magnitudeBits
  rcases f.width.bits_cases with h | h | h <;> split <;> simp [Format.w, h]

theorem Format.magnitudeBits_le (f : Format) : f.magnitudeBits ≤ 32 := by
  have := f.w_le
  unfold Format.magnitudeBits
  split <;> omega

theorem Format.eight_mul_pow2_frac_le {f : Format} (hwb : 3 ≤ f.wholeBits) :
    8 * pow2 f.frac ≤ pow2 f.magnitudeBits := by
  have hsplit : pow2 f.wholeBits.toNat * pow2 f.frac = pow2 f.magnitudeBits := Format.pow2_wholeBits_mul_frac (by omega)
  have height : pow2 3 ≤ pow2 f.wholeBits.toNat := pow2_mono (by omega)
  rw [← hsplit]
  exact mul_le_mul_of_nonneg_right height (pow2_pos _).le

theorem Format.eight_mul_radicand_lt {f : Format} {a : Word} (ha : f.fits a = true) (hpos : 0 < f.value a)
    (hwb : 3 ≤ f.wholeBits) : 8 * f.radicand a < pow2 f.magnitudeBits ^ 2 := by
  have hroom := Format.eight_mul_pow2_frac_le hwb
  have hlt := Format.value_lt ha hpos.le
  have := pow2_pos f.frac
  unfold Format.radicand
  nlinarith

theorem Format.radicand_pos {f : Format} {a : Word} (hpos : 0 < f.value a) : 0 < f.radicand a :=
  mul_pos hpos (pow2_pos _)

end Sys2Proof

namespace Sys2Proof.Machine

open Sys2Proof

/-! ## The operations on values that are not negative and do not overflow -/

theorem value_addValue {f : Format} {x y : Word} (hx : f.fits x = true) (hy : f.fits y = true)
    (h0 : 0 ≤ f.value x + f.value y) (hlt : f.value x + f.value y < pow2 f.magnitudeBits) :
    f.value (addValue f x y) = f.value x + f.value y := by
  rw [addValue, Format.ival_eq_value hx, Format.ival_eq_value hy, Format.wrap_eq_pattern,
    Format.value_pattern_of_nonneg h0 hlt]

/-- The right shift by one never overflows. -/
theorem value_shr1 {f : Format} {x : Word} (hx : f.fits x = true) : f.value (f.shr1 x) = f.value x / 2 := by
  have hfit : f.holds (Int.fdiv (f.value x) 2) := Format.holds_fdiv (Format.value_holds hx) 1
  rw [shr1_eq_pattern hx, Format.value_pattern hfit, Int.fdiv_eq_ediv_of_nonneg _ zero_le_two]

theorem divfValue_eq_pattern {f : Format} {a y : Word} (ha : f.fits a = true) (hy : f.fits y = true)
    (hnonneg : 0 ≤ f.value a) (hpos : 0 < f.value y) :
    divfValue f a y = .ok (f.pattern (f.radicand a / f.value y)) := by
  have hdividend : 0 ≤ f.radicand a := mul_nonneg hnonneg (pow2_pos _).le
  rcases divfValue_cases f a y with ⟨hzero, -⟩ | ⟨-, hvalue⟩
  · rw [Format.ival_eq_value hy] at hzero
    exact absurd hzero hpos.ne'
  · rw [hvalue, scaledDividend_eq_value_mul ha, Format.ival_eq_value hy, Format.wrap_eq_pattern]
    exact congrArg (Except.ok <| f.pattern ·) (fastQuotient_of_nonneg hdividend _)

theorem divrValue_eq_pattern {f : Format} {a y : Word} (ha : f.fits a = true) (hy : f.fits y = true)
    (hnonneg : 0 ≤ f.value a) (hpos : 0 < f.value y) :
    divrValue f a y = .ok (f.pattern ((f.radicand a + f.value y / 2) / f.value y)) := by
  have hdividend : 0 ≤ f.radicand a := mul_nonneg hnonneg (pow2_pos _).le
  rcases divrValue_cases f a y with ⟨hzero, -⟩ | ⟨-, hvalue⟩
  · rw [Format.ival_eq_value hy] at hzero
    exact absurd hzero hpos.ne'
  · rw [hvalue, scaledDividend_eq_value_mul ha, Format.ival_eq_value hy, Format.wrap_eq_pattern]
    exact congrArg (Except.ok <| f.pattern ·) (roundedQuotient_of_nonneg hdividend hpos)

/-! ## The steps of SQRT on values -/

/-- ADD of an iterate and a quotient that is not negative, where their sum fits. -/
theorem value_add_quotient {f : Format} {y : Word} {q : Int} (hy : f.fits y = true) (hpos : 0 < f.value y) (hq : 0 ≤ q)
    (hsum : f.value y + q < pow2 f.magnitudeBits) :
    f.value (addValue f y (f.pattern q)) = f.value y + q := by
  have hvalue : f.value (f.pattern q) = q := Format.value_pattern_of_nonneg hq (by omega)
  rw [value_addValue hy (f.pattern_fits q) (by omega) (by omega), hvalue]

theorem fastStep_value {f : Format} {a y : Word} (ha : f.fits a = true) (hnonneg : 0 ≤ f.value a)
    (hy : f.fits y = true) (hpos : 0 < f.value y)
    (hsum : f.value y + f.radicand a / f.value y < pow2 f.magnitudeBits) :
    ∃ y', fastStep f a y = .ok y' ∧ f.fits y' = true ∧ f.value y' = (f.value y + f.radicand a / f.value y) / 2 := by
  have hq : 0 ≤ f.radicand a / f.value y := Int.ediv_nonneg (mul_nonneg hnonneg (pow2_pos _).le) hpos.le
  refine ⟨_, by rw [fastStep, divfValue_eq_pattern ha hy hnonneg hpos], shr1_fits _ _, ?_⟩
  rw [value_shr1 (addValue_fits _ _ _), value_add_quotient hy hpos hq hsum]

/-- DIVR by TWO rounds the half of a value that is not negative up (R109). -/
theorem value_divrValue_two {f : Format} {x : Word} (hx : f.fits x = true) (hpos : 0 < f.value x)
    (hwb : 3 ≤ f.wholeBits) :
    ∃ v, divrValue f x (rootTwo f) = .ok v ∧ f.fits v = true ∧ f.value v = (f.value x + 1) / 2 := by
  have hscale := pow2_pos f.frac
  have hroom := Format.eight_mul_pow2_frac_le hwb
  have hlt := Format.value_lt hx hpos.le
  have htwo : f.value (rootTwo f) = 2 * pow2 f.frac := by
    rw [rootTwo_eq_pattern, Format.value_pattern_of_nonneg (by omega) (by omega)]
  have hfits : f.fits (rootTwo f) = true := Format.wrap_fits _ _
  have hhalf : (f.radicand x + 2 * pow2 f.frac / 2) / (2 * pow2 f.frac) = (f.value x + 1) / 2 := by
    rw [Int.mul_ediv_cancel_left _ two_ne_zero, Format.radicand, ← add_one_mul, Int.mul_ediv_mul_of_pos_left _ _ hscale]
  refine ⟨_, divrValue_eq_pattern hx hfits hpos.le (by omega), f.pattern_fits _, ?_⟩
  rw [htwo, hhalf, Format.value_pattern_of_nonneg (by omega) (by omega)]

theorem preciseStep_value {f : Format} {a y : Word} (ha : f.fits a = true) (hnonneg : 0 ≤ f.value a)
    (hy : f.fits y = true) (hpos : 0 < f.value y) (hwb : 3 ≤ f.wholeBits)
    (hsum : f.value y + (f.radicand a + f.value y / 2) / f.value y < pow2 f.magnitudeBits) :
    ∃ y', preciseStep f a y = .ok y' ∧ f.fits y' = true ∧
      f.value y' = (f.value y + (f.radicand a + f.value y / 2) / f.value y + 1) / 2 := by
  have hq : 0 ≤ (f.radicand a + f.value y / 2) / f.value y :=
    Int.ediv_nonneg (add_nonneg (mul_nonneg hnonneg (pow2_pos _).le) (by omega)) hpos.le
  have hadd := value_add_quotient hy hpos hq hsum
  have hsumpos : 0 < f.value (addValue f y (f.pattern ((f.radicand a + f.value y / 2) / f.value y))) := by
    rw [hadd]; omega
  obtain ⟨v, hv, hfits, hvalue⟩ := value_divrValue_two (addValue_fits _ _ _) hsumpos hwb
  refine ⟨v, ?_, hfits, by rw [hvalue, hadd]⟩
  rw [preciseStep, divrValue_eq_pattern ha hy hnonneg hpos]
  exact hv

/-! ## SQRTC and SQRTR -/

/-- The exponent the front finds for a positive radicand, and the bounds of R106 on its coarse root. -/
theorem exists_exponent {f : Format} {a : Word} (ha : f.fits a = true) (hpos : 0 < f.value a) :
    ∃ e, (∀ go, withFront f a go = go e) ∧ pow2 e ^ 2 ≤ f.radicand a ∧ f.radicand a < (2 * pow2 e) ^ 2 := by
  obtain ⟨h, hlow, hhigh, hlow', hhigh', -⟩ := exists_highestBit ha hpos
  exact ⟨_, withFront_exponent ha hpos.le hlow hhigh, coarse_bounds hlow' hhigh'⟩

/-- The rescaled radicand of R107 is the quotient of the radicand by the coarse root, whichever way it is shifted. -/
theorem rescaledRadicand_eq_quotient {f : Format} {a : Word} (ha : f.fits a = true) (e : Nat) :
    rescaledRadicand f a e = f.pattern (f.radicand a / pow2 e) := by
  rw [rescaledRadicand_eq_pattern ha, Format.radicand]
  split
  case isTrue hle =>
    have hsplit : pow2 e = pow2 (e - f.frac) * pow2 f.frac := by rw [← pow2_add, Nat.sub_add_cancel hle]
    rw [Int.fdiv_eq_ediv_of_nonneg _ (pow2_pos _).le, hsplit, Int.mul_ediv_mul_of_pos_left _ _ (pow2_pos _)]
  case isFalse hgt =>
    have hsplit : pow2 f.frac = pow2 (f.frac - e) * pow2 e := by rw [← pow2_add, Nat.sub_add_cancel (by omega)]
    rw [hsplit, ← mul_assoc, Int.mul_ediv_cancel _ (pow2_ne_zero e)]

section RefinedRoot

variable {f : Format} {a : Word} {e : Nat} (ha : f.fits a = true) (hpos : 0 < f.value a) (hwb : 3 ≤ f.wholeBits)
  (hlow : pow2 e ^ 2 ≤ f.radicand a) (hhigh : f.radicand a < (2 * pow2 e) ^ 2)

include ha hpos hwb hlow hhigh

/-- The two estimates together fit. -/
theorem refined_sum_lt : pow2 e + f.radicand a / pow2 e < pow2 f.magnitudeBits := by
  have hsq := refined_sum_sq_le (pow2_pos e) hlow hhigh
  have hroom := Format.eight_mul_radicand_lt ha hpos hwb
  have hM := pow2_pos f.magnitudeBits
  by_contra hge
  nlinarith

theorem value_coarseRoot : f.value (coarseRoot f e) = pow2 e := by
  have hsum := refined_sum_lt ha hpos hwb hlow hhigh
  have hq : 0 ≤ f.radicand a / pow2 e := Int.ediv_nonneg (Format.radicand_pos hpos).le (pow2_pos e).le
  rw [coarseRoot, Format.wrap_eq_pattern, Format.value_pattern_of_nonneg (pow2_pos e).le (by omega)]

/-- R107 on values. -/
theorem value_refinedRoot : f.value (refinedRoot f a e) = (pow2 e + f.radicand a / pow2 e) / 2 := by
  have hsum := refined_sum_lt ha hpos hwb hlow hhigh
  have hcoarse := value_coarseRoot ha hpos hwb hlow hhigh
  have hq : 0 ≤ f.radicand a / pow2 e := Int.ediv_nonneg (Format.radicand_pos hpos).le (pow2_pos e).le
  have hfits : f.fits (coarseRoot f e) = true := Format.wrap_fits _ _
  rw [refinedRoot, value_shr1 (addValue_fits _ _ _), rescaledRadicand_eq_quotient ha,
    value_add_quotient hfits (hcoarse ▸ pow2_pos e) hq (hcoarse ▸ hsum), hcoarse]

theorem coarse_le_refined : pow2 e ≤ f.value (refinedRoot f a e) := by
  have hle : pow2 e ≤ f.radicand a / pow2 e := (Int.le_ediv_iff_mul_le (pow2_pos e)).2 (by rw [← sq]; exact hlow)
  rw [value_refinedRoot ha hpos hwb hlow hhigh]
  omega

theorem refinedRoot_pos : 0 < f.value (refinedRoot f a e) :=
  (pow2_pos e).trans_le (coarse_le_refined ha hpos hwb hlow hhigh)

theorem radicand_lt_refined : f.radicand a < (f.value (refinedRoot f a e) + 1) ^ 2 := by
  rw [value_refinedRoot ha hpos hwb hlow hhigh]
  exact newton_floor_lower (Format.radicand_pos hpos).le (pow2_pos e)

theorem refined_sq_le : 16 * f.value (refinedRoot f a e) ^ 2 ≤ 25 * f.radicand a := by
  have hsq := refined_sum_sq_le (pow2_pos e) hlow hhigh
  have hnonneg := (refinedRoot_pos ha hpos hwb hlow hhigh).le
  rw [value_refinedRoot ha hpos hwb hlow hhigh] at hnonneg ⊢
  have hhalf : 2 * ((pow2 e + f.radicand a / pow2 e) / 2) ≤ pow2 e + f.radicand a / pow2 e := by omega
  nlinarith

theorem refinedRoot_nearRoot : NearRoot (f.radicand a) (f.value (refinedRoot f a e)) := by
  have h0 := refinedRoot_pos ha hpos hwb hlow hhigh
  have hsq := refined_sq_le ha hpos hwb hlow hhigh
  exact ⟨h0, radicand_lt_refined ha hpos hwb hlow hhigh, by nlinarith⟩

theorem refinedRoot_ratioBound : RatioBound (newtonRatio 0) (f.radicand a) (f.value (refinedRoot f a e)) :=
  .inr (refined_sq_le ha hpos hwb hlow hhigh)

end RefinedRoot

/-- Settles O51: the value of SQRTR is one step from the coarse root, which is within a factor of two of the root. -/
theorem sqrtrIsWithinAQuarterOfTheRoot : Obligations.SqrtrIsWithinAQuarterOfTheRoot := by
  intro s a ha hpos hwb
  obtain ⟨e, hfront, hlow, hhigh⟩ := exists_exponent ha hpos
  refine ⟨refinedRoot s.cfg.src a e, ?_, refinedRoot_pos ha hpos hwb hlow hhigh,
    radicand_lt_refined ha hpos hwb hlow hhigh, refined_sq_le ha hpos hwb hlow hhigh⟩
  rw [exec_sqrtr, sqrtrValue, hfront]
  rfl

/-- Settles O52: both commands find the same exponent. -/
theorem sqrtrIsNoFartherThanSqrtc : Obligations.SqrtrIsNoFartherThanSqrtc := by
  intro s a c v ha hpos hwb hc hv
  obtain ⟨e, hfront, hlow, hhigh⟩ := exists_exponent ha hpos
  rw [exec_sqrtc, sqrtcValue, hfront] at hc
  rw [exec_sqrtr, sqrtrValue, hfront] at hv
  rw [← Except.ok.inj (eq_ok_of_conclude hc), ← Except.ok.inj (eq_ok_of_conclude hv),
    value_coarseRoot ha hpos hwb hlow hhigh]
  refine ⟨hlow, coarse_le_refined ha hpos hwb hlow hhigh, fun _ => ?_⟩
  rw [value_refinedRoot ha hpos hwb hlow hhigh]
  exact refined_no_farther (pow2_pos e) hlow hhigh

/-! ## SQRT -/

/-- A repetition of steps that each succeed and take one predicate to the next. -/
theorem repeatStep_invariant {body : Word → Except CmdFault Word} {P : Nat → Word → Prop}
    (hstep : ∀ k y, P k y → ∃ y', body y = .ok y' ∧ P (k + 1) y') (n : Nat) {k : Nat} {y : Word} (hy : P k y) :
    ∃ y', repeatStep body n y = .ok y' ∧ P (k + n) y' := by
  induction n generalizing k y with
  | zero => exact ⟨y, rfl, hy⟩
  | succ n ih =>
    obtain ⟨y1, hbody, hy1⟩ := hstep k y hy
    obtain ⟨y', hrun, hy'⟩ := ih hy1
    refine ⟨y', ?_, ?_⟩
    · rw [repeatStep, hbody]
      exact hrun
    · rwa [Nat.add_right_comm] at hy'

/-- What every iterate of SQRT is, whichever the phase. -/
def IsIterate (f : Format) (a y : Word) : Prop := f.fits y = true ∧ NearRoot (f.radicand a) (f.value y)

section Iterations

variable {f : Format} {a : Word} (ha : f.fits a = true) (hpos : 0 < f.value a) (hwb : 3 ≤ f.wholeBits)

include ha hpos hwb

theorem refinedRoot_isIterate {e : Nat} (hlow : pow2 e ^ 2 ≤ f.radicand a) (hhigh : f.radicand a < (2 * pow2 e) ^ 2) :
    IsIterate f a (refinedRoot f a e) := ⟨shr1_fits _ _, refinedRoot_nearRoot ha hpos hwb hlow hhigh⟩

theorem IsIterate.sum_lt {y : Word} (h : IsIterate f a y) :
    f.value y + f.radicand a / f.value y + 1 < pow2 f.magnitudeBits := by
  obtain ⟨-, hnear⟩ := h
  have hM : pow2 7 ≤ pow2 f.magnitudeBits := pow2_mono f.magnitudeBits_ge
  exact hnear.sum_lt hM (Format.eight_mul_radicand_lt ha hpos hwb)

/-- A fast step of an iterate succeeds, gives an iterate, and comes closer to the root. -/
theorem IsIterate.fastStep {y : Word} (h : IsIterate f a y) :
    ∃ y', fastStep f a y = .ok y' ∧ IsIterate f a y' ∧
      f.value y' = (f.value y + f.radicand a / f.value y) / 2 := by
  have hsum := h.sum_lt ha hpos hwb
  obtain ⟨hy, hnear⟩ := h
  obtain ⟨y', hstep, hfits, hvalue⟩ := fastStep_value ha hpos.le hy hnear.pos (by omega)
  exact ⟨y', hstep, ⟨hfits, hvalue ▸ hnear.fast (Format.radicand_pos hpos)⟩, hvalue⟩

theorem IsIterate.preciseStep {y : Word} (h : IsIterate f a y) :
    ∃ y', preciseStep f a y = .ok y' ∧ IsIterate f a y' ∧
      f.value y' = (f.value y + (f.radicand a + f.value y / 2) / f.value y + 1) / 2 := by
  have hsum := h.sum_lt ha hpos hwb
  obtain ⟨hy, hnear⟩ := h
  obtain ⟨-, hrounded⟩ := rounded_ediv_bounds (f.radicand a) hnear.pos
  obtain ⟨y', hstep, hfits, hvalue⟩ := preciseStep_value ha hpos.le hy hnear.pos hwb (by omega)
  exact ⟨y', hstep, ⟨hfits, hvalue ▸ hnear.precise (Format.radicand_pos hpos)⟩, hvalue⟩

/-- Any number of fast steps, with the ratio bound they reach. -/
theorem repeat_fastStep (n : Nat) {y : Word} (hy : IsIterate f a y)
    (hb : RatioBound (newtonRatio 0) (f.radicand a) (f.value y)) :
    ∃ y', repeatStep (fastStep f a) n y = .ok y' ∧ IsIterate f a y' ∧
      RatioBound (newtonRatio n) (f.radicand a) (f.value y') := by
  have hstep : ∀ k y, (IsIterate f a y ∧ RatioBound (newtonRatio k) (f.radicand a) (f.value y)) →
      ∃ y', fastStep f a y = .ok y' ∧ IsIterate f a y' ∧
        RatioBound (newtonRatio (k + 1)) (f.radicand a) (f.value y') := by
    rintro k y ⟨hy, hb⟩
    obtain ⟨y', hy', hiter, hvalue⟩ := hy.fastStep ha hpos hwb
    obtain ⟨-, hnear⟩ := hy
    exact ⟨y', hy', hiter, hvalue ▸ hb.fast hnear (Format.radicand_pos hpos)⟩
  have := repeatStep_invariant hstep n (k := 0) ⟨hy, hb⟩
  rwa [Nat.zero_add] at this

/-- Any number of precise steps. -/
theorem repeat_preciseStep (n : Nat) {y : Word} (hy : IsIterate f a y) :
    ∃ y', repeatStep (preciseStep f a) n y = .ok y' ∧ IsIterate f a y' := by
  refine repeatStep_invariant (P := fun _ y => IsIterate f a y) (fun _ y h => ?_) n (k := 0) hy
  obtain ⟨y', hy', hiter, -⟩ := h.preciseStep ha hpos hwb
  exact ⟨y', hy', hiter⟩

end Iterations

/-- SQRT of a positive value up to its last fast step, and what is left. -/
theorem exists_fast_iterate {cfg : Cfg} {a : Word} (ha : cfg.src.fits a = true) (hpos : 0 < cfg.src.value a)
    (hwb : 3 ≤ cfg.src.wholeBits) :
    ∃ y, IsIterate cfg.src a y ∧ RatioBound (newtonRatio cfg.nFast) (cfg.src.radicand a) (cfg.src.value y) ∧
      sqrtValue cfg a = repeatStep (preciseStep cfg.src a) cfg.nPrecise y := by
  obtain ⟨e, hfront, hlow, hhigh⟩ := exists_exponent ha hpos
  obtain ⟨y, hrun, hiter, hbound⟩ := repeat_fastStep ha hpos hwb cfg.nFast
    (refinedRoot_isIterate ha hpos hwb hlow hhigh) (refinedRoot_ratioBound ha hpos hwb hlow hhigh)
  refine ⟨y, hiter, hbound, ?_⟩
  rw [sqrtValue, hfront, iterateRoot, hrun]

/-- Settles O54: at zero the front gives the result, and elsewhere every step of an iterate succeeds. -/
theorem sqrtNeverFaultsWithThreeWholeBits : Obligations.SqrtNeverFaultsWithThreeWholeBits := by
  intro s a ha hnonneg hwb
  rcases hnonneg.eq_or_lt with hzero | hpos
  · obtain rfl : a = 0 := by rw [← Format.pattern_value ha, ← hzero, Format.pattern_zero]
    obtain ⟨-, -, hroot⟩ := rootOfZeroIsZero s
    exact ⟨0, hroot⟩
  · obtain ⟨y, hiter, -, hsqrt⟩ := exists_fast_iterate ha hpos hwb
    obtain ⟨v, hrun, -⟩ := repeat_preciseStep ha hpos hwb s.cfg.nPrecise hiter
    refine ⟨v, ?_⟩
    rw [exec_sqrt, hsqrt, hrun]
    rfl

/-- Settles O55: four fast steps come within one unit above the root, or to the rounded root, and the precise step stays
there. -/
theorem sqrtIsWithinOneRawUnitOfTheRoot : Obligations.SqrtIsWithinOneRawUnitOfTheRoot := by
  intro s a ha hpos hwb hfast hprecise
  have hX := Format.radicand_pos hpos
  obtain ⟨y, hiter, hbound, hsqrt⟩ := exists_fast_iterate ha hpos hwb
  obtain ⟨v, hstep, ⟨-, hnear⟩, hvalue⟩ := hiter.preciseStep ha hpos hwb
  obtain ⟨hy, hyNear⟩ := hiter
  have hsmall : s.cfg.src.value y < (newtonRatio 4).1 :=
    calc s.cfg.src.value y < pow2 s.cfg.src.magnitudeBits := Format.value_lt hy hyNear.pos.le
      _ ≤ pow2 32 := pow2_mono s.cfg.src.magnitudeBits_le
      _ < (newtonRatio 4).1 := two_pow_32_lt_newtonRatio_four
  rw [hfast] at hbound
  have hone := hbound.within_one hX hyNear.pos hsmall
  refine ⟨v, ?_, ?_, hnear.lower⟩
  · rw [exec_sqrt, hsqrt, hprecise, repeatStep, hstep]
    rfl
  · rw [hvalue]
    exact hyNear.precise_within_one hX hone

end Sys2Proof.Machine
